-- ==== Sys2Proof/Word.lean ====
section
/-! DEFINITION. The machine's plain number types (spec R13: all values are unsigned bit vectors). -/

namespace Sys2Proof

/-- A byte: a general register, a timer, a memory cell, an 8-bit immediate `NN` (R21, R29, R50, R81). -/
abbrev Byte := BitVec 8

/-- A 16-bit word: the program counter, the index register, a stack slot, an instruction word (R24, R26, R27, R80). -/
abbrev Word := BitVec 16

/-- A 12-bit address immediate `NNN` (R81). -/
abbrev Addr12 := BitVec 12

/-- A 4-bit field of the instruction word (R81). -/
abbrev Nibble := BitVec 4

/-- The number of a general register, V0 to VF (R21). -/
abbrev RegIx := Fin 16

/-- The number of a key, 0 to 15 (R170). -/
abbrev KeyIx := Fin 16

end Sys2Proof
end

