-- ==== Sys2Proof/Config.lean ====
section
/-! DEFINITION. What the platform fixes (the parameters of R12), what the host supplies to a step and does after it
(R8, R10, R232), the host's error policy (R217), and the two free values of the model. -/

namespace Sys2Proof

/-- The memory size, fixed by R11 and R50: indices 0x000 to 0xFFF. -/
def memorySize : Nat := 4096

/-- First address of the font table (R51). -/
def fontBase : Nat := 0x050

/-- Length of the font table: 16 digits of 5 bytes (R54). -/
def fontSize : Nat := 80

/-- The program-loadable base address, which is also the entry point (R51, R252). -/
def programBase : Nat := 0x200

/-- The longest program image: 0x200 to 0xFFF (R254). -/
def maxImage : Nat := 3584

/-- The parameters that R12 leaves to the platform and that stay fixed during a run (R41). A state carries them, so a
statement about every state is a statement about every value of them. Bytes of `memInit` past the list's end are 0x00
(log entry 4). -/
structure Params where
  /-- `DISPLAY_W`, the display's width in pixels. -/
  displayW : Nat
  /-- `DISPLAY_H`, the display's height in pixels. -/
  displayH : Nat
  /-- `FONT`, the 80 bytes at 0x050 to 0x09F. -/
  font : List Byte
  /-- `MEM_INIT`: the byte at address `a` outside the font table and the image is `memInit[a]`. -/
  memInit : List Byte
  deriving DecidableEq, Repr

/-- What the host does when a step returns an error: the parameter `ON_ERROR` of R12 and R217. -/
inductive OnError where
  /-- `HALT`: the error ends the run. -/
  | halt
  /-- `CONTINUE`: the host notes the error and goes on stepping from the state R214 gives. -/
  | goOn
  deriving DecidableEq, Repr

/-- What the host brings to ONE step: the inputs the step reads (R8) and the ticks that fall between this step and the
next one (R232). -/
structure HostTurn where
  /-- `keys[k]` is bit `k`: key `k` is down. -/
  keys : BitVec 16
  /-- `key_event`: the key whose press this step's poll delivers, if any. -/
  keyEvent : Option KeyIx
  /-- `rnd`: the random source's draw for this step. -/
  rnd : Byte
  /-- How many ticks the host makes after this step and before the next one. -/
  ticks : Nat
  deriving DecidableEq, Repr, Inhabited

/-- FREE VALUE. What the host brings to the step number `n` where the state's schedule says nothing, but for the ticks it
owes: R8, R150 and R232 put no other constraint on it, so it has no body and nothing can be proved of its value (log
entry 2). -/
opaque Config.freeHostTurn : Nat → HostTurn

/-- FREE VALUE. How many turns the host may let pass, from the turn number `n` on, before it owes a tick: fairness bounds
none of these waits, and only makes each of them end (R12, R232; log entry 10). -/
opaque Config.freeTickWait : Nat → Nat

end Sys2Proof
end

