-- ==== Sys2Proof/Machine/State.lean ====
section
/-! DEFINITION. The state of the machine (R20), the errors a step returns (R210), the display commands it emits (R9), and
the state after reset (R38, R250). Plain data throughout. -/

namespace Sys2Proof.Machine

/-- Which bound of the call stack was hit (R212). -/
inductive StackFaultKind where
  /-- A call with 16 occupied slots. -/
  | overflow
  /-- A return with none. -/
  | underflow
  deriving DecidableEq, Repr

/-- The errors of R210. With the policy `OnError.halt` a step that raises one ends as this fault: safe, since nothing is
claimed of what follows, and it is the treatment R217 recommends. With `OnError.goOn` the step has a next state and the
error stands in that state's field `error`. -/
inductive Fault where
  /-- R211. Raised by a step whose fetched word is illegal (R89); the payload is the word. Safe. -/
  | unknownInstruction (word : Word)
  /-- R212. Raised by 2NNN at 16 occupied slots and by 00EE at none. Safe. -/
  | stackFault (kind : StackFaultKind)
  /-- R213. Raised by fetch, DXYN, FX33, FX55 and FX65 for an address above 0xFFF; the payload is the lowest such
  address. Safe: the error itself is the spec's decision D10. -/
  | memoryRangeFault (addr : Nat)
  deriving DecidableEq, Repr

/-- Reasons to give an instruction no meaning. No arm of `exec` uses one: all 34 instructions are modelled. -/
inductive Refusal where
  /-- Raised by an arm of `exec` for an instruction that has no meaning yet. Safe. -/
  | notModelled (mnemonic : String)
  deriving DecidableEq, Repr

/-- A command to the Display Surface (R9 (b)). -/
inductive DisplayCommand where
  /-- `clear()`. -/
  | clear
  /-- `set_pixel(x, y)`. -/
  | setPixel (x y : Nat)
  /-- `clear_pixel(x, y)`. -/
  | clearPixel (x y : Nat)
  /-- `present()`. -/
  | present
  deriving DecidableEq, Repr

/-- The machine (R20), the outputs of its latest step (R9), its parameters (R12), and what the host brings to the coming
steps (R8, R232). -/
structure State where
  /-- `V[0]` to `V[15]` (R21). -/
  v : Vector Byte 16
  /-- `I`, the index register; all 16 bits are kept (R26). -/
  index : Word
  /-- `pc` (R24). While an instruction executes it holds the instruction's address plus 2. -/
  pc : Word
  /-- `stack[0]` to `stack[15]`, occupied below `sp` (R27). -/
  stack : Vector Word 16
  /-- `SP`, the number of occupied stack slots, 0 to 16 (R27). -/
  sp : Fin 17
  /-- `DT`, the delay timer (R29). -/
  dt : Byte
  /-- `ST`, the sound timer (R29). -/
  st : Byte
  /-- `mem` (R30, R50): the bytes that differ from what their address reads as unlisted, addresses strictly rising. -/
  mem : List Host.Cell
  /-- `disp` (R31): the numbers `y * displayW + x` of the cells that hold 1, strictly rising (R72). -/
  disp : List Nat
  /-- `awaiting_input` (R33). -/
  awaiting : Bool
  /-- The display commands the latest step emitted, in order (R9 (b)). -/
  commands : List DisplayCommand
  /-- The error the latest step returned, under the policy that goes on (R9 (a), R217). -/
  error : Option Fault
  /-- The parameters that stay fixed during a run (R12, R41). -/
  params : Params
  /-- The host's error policy (R217). -/
  onError : OnError
  /-- What the host brings to the coming steps, the next one first; after its end the host is free but fair (R232). -/
  schedule : List HostTurn
  /-- How many steps have been made: the number the free values are taken at. -/
  turn : Nat
  deriving DecidableEq, Repr

/-- The machine right after reset with the default parameters and no image (R38, R250, R252); log entry 1. -/
def State.reset : State where
  v := Vector.replicate 16 0x00#8
  index := 0x0000#16
  pc := 0x0200#16
  stack := Vector.replicate 16 0x0000#16
  sp := 0
  dt := 0x00#8
  st := 0x00#8
  mem := []
  disp := []
  awaiting := false
  commands := []
  error := none
  params := defaultParams
  onError := .halt
  schedule := []
  turn := 0

end Sys2Proof.Machine
end

