-- ==== Sys2Proof/Machine/Display.lean ====
section
/-! DEFINITION. The display grid as data and the drawing of a sprite onto it (R31, R72, R156 to R160). -/

namespace Sys2Proof.Machine

/-- The number of the cell in column `x` and row `y` (R72). -/
def Display.cell (p : Params) (x y : Nat) : Nat := y * p.displayW + x

/-- `disp[x][y] = 1`; false outside the grid. -/
def Display.pixel (p : Params) (d : List Nat) (x y : Nat) : Bool :=
  decide (x < p.displayW) && decide (y < p.displayH) && d.contains (Display.cell p x y)

/-- The display with cell `k` at 0. -/
def Display.off (k : Nat) (d : List Nat) : List Nat := d.filter (fun j => j != k)

/-- The display with cell `k`, which is 0, set to 1. -/
def Display.on (k : Nat) : List Nat → List Nat
  | [] => [k]
  | j :: d => if k < j then k :: j :: d else j :: Display.on k d

/-- The canonical form: cell numbers strictly rising and inside the grid, so that every cell is 0 or 1 (R39). -/
abbrev Display.wf (p : Params) (d : List Nat) : Prop :=
  d.Pairwise (fun j k => j < k) ∧ ∀ k ∈ d, k < p.displayW * p.displayH

/-- What a drawing works on: the cells, whether a pixel has collided (R159), and the commands emitted so far (R160). -/
structure Canvas where
  /-- The display. -/
  disp : List Nat
  /-- A set sprite bit has met a set cell. -/
  hit : Bool
  /-- The commands, in order. -/
  commands : List DisplayCommand
  deriving DecidableEq, Repr

/-- One set sprite bit at column `x`, row `y`: the cell is toggled, a set cell is a collision, and one command is emitted
(the innermost block of R156). -/
def Canvas.plot (p : Params) (c : Canvas) (xy : Nat × Nat) : Canvas :=
  if c.disp.contains (Display.cell p xy.1 xy.2) then
    { disp := Display.off (Display.cell p xy.1 xy.2) c.disp, hit := true,
      commands := c.commands ++ [.clearPixel xy.1 xy.2] }
  else
    { disp := Display.on (Display.cell p xy.1 xy.2) c.disp, hit := c.hit,
      commands := c.commands ++ [.setPixel xy.1 xy.2] }

/-- The columns that the set bits of a row byte land on, leftmost first: bit 7 is the leftmost pixel (R158) and columns
wrap (R157). -/
def rowColumns (p : Params) (x0 : Nat) (b : Byte) : List Nat :=
  ((List.range 8).filter (fun c => b.getLsbD (7 - c))).map (fun c => (x0 + c) % p.displayW)

/-- The cells that the set bits of a sprite land on, in drawing order: top row first, leftmost pixel first, rows wrapping
(R156, R157). The list holds the rows from offset `r` on. -/
def spriteCells (p : Params) (x0 y0 : Nat) : Nat → List Byte → List (Nat × Nat)
  | _, [] => []
  | r, b :: rows =>
    (rowColumns p x0 b).map (fun x => (x, (y0 + r) % p.displayH)) ++ spriteCells p x0 y0 (r + 1) rows

/-- The sprite drawn at start column `x0` and start row `y0` onto a display. -/
def drawSprite (p : Params) (x0 y0 : Nat) (rows : List Byte) (d : List Nat) : Canvas :=
  (spriteCells p x0 y0 0 rows).foldl (Canvas.plot p) { disp := d, hit := false, commands := [] }

end Sys2Proof.Machine
end

