-- ==== Sys2Proof/Machine/Flags.lean ====
section
/-! DEFINITION. The one flag, kept in VF (R34), and the seven computations of it (R37), six of them here: the seventh, the
collision of DXYN, is computed while drawing (`Canvas.hit`). Each is computed from the operands as they were read (R23). -/

namespace Sys2Proof.Machine

/-- The register VF, `V[15]` (R18, R34). -/
def flagReg : RegIx := 15

/-- A flag as VF holds it: 0x00 or 0x01, all 8 bits written (R34). -/
def flagByte (f : Bool) : Byte := if f then 0x01#8 else 0x00#8

/-- 8XY4: the unsigned sum of two bytes exceeds 255 (R117). -/
def carryOut (a b : Byte) : Bool := decide (a.toNat + b.toNat > 255)

/-- 8XY5 and 8XY7: the minuend `a` is at least the subtrahend `b` (R118, R120). -/
def noBorrow (a b : Byte) : Bool := decide (a.toNat ≥ b.toNat)

/-- 8XY6: the bit shifted out to the right, bit 0 (R119). -/
def bitOutRight (a : Byte) : Bool := a.getLsbD 0

/-- 8XYE: the bit shifted out to the left, bit 7 (R121). -/
def bitOutLeft (a : Byte) : Bool := a.getLsbD 7

/-- FX1E: the unwrapped sum of `I` and the register exceeds 0xFFF (R192). -/
def indexOverflow (i : Word) (b : Byte) : Bool := decide (i.toNat + b.toNat > 0x0FFF)

end Sys2Proof.Machine
end

