-- ==== Sys2Proof/Machine/Memory.lean ====
section
/-! DEFINITION. The memory as data and its address translator (R50 to R61, R70). -/

namespace Sys2Proof.Machine

/-- What an address that no entry lists reads as: the reset contents of R38 and R51. The font table stands at 0x050 to
0x09F (R54, R56); everything else is `MEM_INIT` (R12; log entry 4). -/
def Memory.unlisted (p : Params) (a : Nat) : Byte :=
  if fontBase ≤ a ∧ a < fontBase + fontSize then p.font.getD (a - fontBase) 0x00#8 else p.memInit.getD a 0x00#8

/-- The listed byte at an address, if there is one. -/
def Memory.lookup (a : Nat) : List Host.Cell → Option Byte
  | [] => none
  | c :: m => if c.1 = a then some c.2 else Memory.lookup a m

/-- `mem[a]`. -/
def Memory.read (p : Params) (m : List Host.Cell) (a : Nat) : Byte :=
  (Memory.lookup a m).getD (Memory.unlisted p a)

/-- The memory without an entry for `a`. -/
def Memory.erase (a : Nat) (m : List Host.Cell) : List Host.Cell := m.filter (fun c => c.1 != a)

/-- The memory with an entry for `a` before the first larger address. -/
def Memory.insert (a : Nat) (b : Byte) : List Host.Cell → List Host.Cell
  | [] => [(a, b)]
  | c :: m => if a < c.1 then (a, b) :: c :: m else c :: Memory.insert a b m

/-- `mem[a] <- b` (R61), keeping the canonical form: writing what the address reads as unlisted removes its entry. -/
def Memory.write (p : Params) (a : Nat) (b : Byte) (m : List Host.Cell) : List Host.Cell :=
  if b = Memory.unlisted p a then Memory.erase a m else Memory.insert a b (Memory.erase a m)

/-- Byte writes at increasing addresses (R61). -/
def Memory.store (p : Params) (a : Nat) : List Byte → List Host.Cell → List Host.Cell
  | [], m => m
  | b :: bs, m => Memory.store p (a + 1) bs (Memory.write p a b m)

/-- The canonical form: addresses strictly rising and inside the 4096 bytes, no entry equal to what its address reads as
unlisted. -/
abbrev Memory.wf (p : Params) (m : List Host.Cell) : Prop :=
  m.Pairwise (fun c d => c.1 < d.1) ∧ ∀ c ∈ m, c.1 < memorySize ∧ c.2 ≠ Memory.unlisted p c.1

/-- The address translator (R58): an effective address, a natural number computed without wrap, to a memory index, or
`none` for the fault. -/
def translateAddress (a : Nat) : Option Nat := if a ≤ 0x0FFF then some a else none

/-- The range check of R70, made before any effect: the lowest untranslatable address among the `n` consecutive addresses
from `base`, if there is one. Checking the highest suffices (R70); the payload is that of R213. -/
def rangeFault (base n : Nat) : Option Nat :=
  if n = 0 then none
  else if base + n - 1 ≤ 0x0FFF then none
  else some (if base > 0x0FFF then base else 0x1000)

end Sys2Proof.Machine
end

