-- ==== Sys2Proof/Machine/Operands.lean ====
section
/-! DEFINITION. The operand forms of R83 and R190: registers, immediates widened with zeros, the low nibble of a register
as a key or a digit, effective addresses, and what the host supplies to the step (R8). -/

namespace Sys2Proof.Machine

/-- `V[x]`, all 8 bits (R21, R22). -/
def State.reg (s : State) (x : RegIx) : Byte := s.v[x.val]

/-- `V[0]` to `V[x]` in order, the register range of FX55 (R198). -/
def State.regsUpTo (s : State) (x : RegIx) : List Byte := s.v.toList.take (x.val + 1)

/-- `zext_16(NNN)` (R83). -/
def zextAddr (nnn : Addr12) : Word := nnn.setWidth 16

/-- `zext_16` of a byte (R144, R192). -/
def zextByte (b : Byte) : Word := b.setWidth 16

/-- `v[3:0]` as a number: the key index of R173 and the digit of R194. -/
def lowNibble (b : Byte) : Nat := b.toNat % 16

/-- The effective address `I + j`, a natural number computed without wrap (R58, R190). -/
def State.ea (s : State) (j : Nat) : Nat := s.index.toNat + j

/-- How many turns after the turn number `n` the host next owes a tick, if `waits` are its waits. A wait counts down turn by
turn, and at 0, when the tick is due, the next wait begins, of any length (R232; log entry 10). -/
def tickWait (waits : Nat → Nat) : Nat → Nat
  | 0 => waits 0
  | n + 1 =>
    match tickWait waits n with
    | 0 => waits (n + 1)
    | w + 1 => w

/-- The turn number `n` of a fair host (R12, R232): any inputs and any number of ticks, at least one where one is owed. The
turns of this form are exactly the fair ones, those in which a tick always comes again (Laws/Host.lean). -/
def fairTurn (turns : Nat → HostTurn) (waits : Nat → Nat) (n : Nat) : HostTurn :=
  { turns n with ticks := (turns n).ticks + if tickWait waits n = 0 then 1 else 0 }

/-- What the host brings to the coming step: the head of the schedule, and where the schedule is at its end the turn of an
unconstrained but fair host (R8, R150, R232; log entries 2 and 10). -/
def State.hostTurn (s : State) : HostTurn :=
  match s.schedule with
  | t :: _ => t
  | [] => fairTurn Config.freeHostTurn Config.freeTickWait s.turn

/-- `keys[k] = 1` at the coming step (R8, R170). -/
def State.keyDown (s : State) (k : Nat) : Bool := s.hostTurn.keys.getLsbD k

end Sys2Proof.Machine
end

