-- ==== Sys2Proof/Machine/Ops.lean ====
section
/-! DEFINITION. The operations that meanings are made of: registers and flag, control transfer, the call stack, memory, the
display's outputs, raising an error, and the error-free outcome. -/

namespace Sys2Proof.Machine

/-- How a step or an instruction ends. -/
abbrev Result := Host.Outcome State Fault Refusal

/-! ## Registers and the flag -/

/-- `V[x] <- b` (R21). -/
def State.setReg (s : State) (x : RegIx) (b : Byte) : State := { s with v := s.v.set x.val b }

/-- `V[15] <- f`, the flag widened with zeros (R34). -/
def State.setFlag (s : State) (f : Bool) : State := s.setReg flagReg (flagByte f)

/-- The result to `V[x]` and then the flag to VF (R23): the flag survives where `x` is VF. -/
def State.setRegFlag (s : State) (x : RegIx) (b : Byte) (f : Bool) : State := (s.setReg x b).setFlag f

/-- `I <- w` (R26). -/
def State.setIndex (s : State) (w : Word) : State := { s with index := w }

/-- The registers `V[0]` to `V[x]` take the bytes `f 0` to `f x`; the others stay (R200). -/
def State.loadRegs (s : State) (x : RegIx) (f : Nat → Byte) : State :=
  { s with v := Vector.ofFn (fun j : Fin 16 => if j.val ≤ x.val then f j.val else s.v[j.val]) }

/-! ## The program counter -/

/-- `pc <- w`; the target is not checked (R141, R146). -/
def State.jumpTo (s : State) (w : Word) : State := { s with pc := w }

/-- `pc <- trunc_16(pc + 2)`: the advance of the fetch (R25). -/
def State.advance (s : State) : State := s.jumpTo (s.pc + 2#16)

/-- `pc <- pc0`, which undoes the advance of this step's fetch (R174). -/
def State.stay (s : State) : State := s.jumpTo (s.pc - 2#16)

/-- The skip mechanism (R130). -/
def State.skipIf (s : State) (c : Bool) : State := if c then s.advance else s

/-! ## The call stack (R27) -/

/-- The state with `pc` pushed, `none` where 16 slots are occupied (R142). -/
def State.push (s : State) : Option State :=
  if h : s.sp.val < 16 then
    some { s with stack := s.stack.set s.sp.val s.pc, sp := ⟨s.sp.val + 1, Nat.succ_lt_succ h⟩ }
  else none

/-- The state with the newest return address popped into `pc`, `none` where no slot is occupied (R143). The slot keeps its
value. -/
def State.pop (s : State) : Option State :=
  if h : 0 < s.sp.val then
    some { s with
      sp := ⟨s.sp.val - 1, Nat.lt_of_le_of_lt (Nat.sub_le _ _) s.sp.isLt⟩
      pc := s.stack[s.sp.val - 1]'(Nat.lt_of_lt_of_le (Nat.sub_lt h Nat.one_pos) (Nat.le_of_lt_succ s.sp.isLt)) }
  else none

/-! ## Memory -/

/-- `mem[a]` (R60): the byte at a memory index, which callers have range checked. -/
def State.byte (s : State) (a : Nat) : Byte := Memory.read s.params s.mem a

/-- The `n` bytes from the effective address `I` on, in order. -/
def State.bytesAtIndex (s : State) (n : Nat) : List Byte := (List.range n).map (fun j => s.byte (s.ea j))

/-- The bytes written at increasing addresses from `a` on (R61). -/
def State.storeBytes (s : State) (a : Nat) (bs : List Byte) : State :=
  { s with mem := Memory.store s.params a bs s.mem }

/-! ## The display's outputs -/

/-- `Emit` each of the commands, in order (R16). -/
def State.emit (s : State) (cs : List DisplayCommand) : State := { s with commands := s.commands ++ cs }

/-! ## Errors

R210 and R219: an error is a value returned to the host. It saves nothing inside the machine, changes no mode and has no
handler, so there is no return from one either (R220): resuming is the next step. -/

/-- Returning an error. The state is the one the step has reached, which has done nothing but the advance of the fetch
(R214). The policy is the host's (R217): under `halt` the run ends; under `goOn` the error is noted and the machine is
ready for its next step. -/
def raise (f : Fault) (s : State) : Result :=
  match s.onError with
  | .halt => .fault f
  | .goOn => .next { s with error := some f }

/-- The range check before an instruction that touches the `n` bytes from `I` on (R70), then its effect. -/
def withIndexRange (n : Nat) (s : State) (effect : State) : Result :=
  match rangeFault s.index.toNat n with
  | some a => raise (.memoryRangeFault a) s
  | none => .next effect

/-- The outcome with a function applied to its next state. -/
def onNext (f : State → State) : Result → Result
  | .next s => .next (f s)
  | .fault r => .fault r
  | .refused r => .refused r

end Sys2Proof.Machine
end

