-- ==== Sys2Proof/Machine/Alu.lean ====
section
/-! DEFINITION. Register load, add immediate and the arithmetic/logic family (R110 to R123). No instruction here raises an
error, and each leaves `pc` where the fetch put it. -/

namespace Sys2Proof.Machine

/-- 6XNN (R111): `V[X] <- NN`. -/
def execLdImm (x : RegIx) (nn : Byte) (s : State) : Result := .next (s.setReg x nn)

/-- 7XNN (R112): `V[X] <- V[X] + NN`, no flag. -/
def execAddImm (x : RegIx) (nn : Byte) (s : State) : Result := .next (s.setReg x (s.reg x + nn))

/-- 8XY0 (R113): `V[X] <- V[Y]`. -/
def execLdReg (x y : RegIx) (s : State) : Result := .next (s.setReg x (s.reg y))

/-- 8XY1 (R114): `V[X] <- V[X] | V[Y]`, no flag. -/
def execOr (x y : RegIx) (s : State) : Result := .next (s.setReg x (s.reg x ||| s.reg y))

/-- 8XY2 (R115): `V[X] <- V[X] & V[Y]`, no flag. -/
def execAnd (x y : RegIx) (s : State) : Result := .next (s.setReg x (s.reg x &&& s.reg y))

/-- 8XY3 (R116): `V[X] <- V[X] ^ V[Y]`, no flag. -/
def execXor (x y : RegIx) (s : State) : Result := .next (s.setReg x (s.reg x ^^^ s.reg y))

/-- 8XY4 (R117): the sum to `V[X]`, then the carry to VF. -/
def execAddReg (x y : RegIx) (s : State) : Result :=
  .next (s.setRegFlag x (s.reg x + s.reg y) (carryOut (s.reg x) (s.reg y)))

/-- 8XY5 (R118): `V[X] - V[Y]` to `V[X]`, then "no borrow" to VF. -/
def execSub (x y : RegIx) (s : State) : Result :=
  .next (s.setRegFlag x (s.reg x - s.reg y) (noBorrow (s.reg x) (s.reg y)))

/-- 8XY6 (R119): `V[X]` shifted right by one in place, then the old bit 0 to VF; `Y` is ignored (R91). -/
def execShr (x _y : RegIx) (s : State) : Result :=
  .next (s.setRegFlag x (s.reg x >>> 1) (bitOutRight (s.reg x)))

/-- 8XY7 (R120): `V[Y] - V[X]` to `V[X]`, then "no borrow" to VF. -/
def execSubn (x y : RegIx) (s : State) : Result :=
  .next (s.setRegFlag x (s.reg y - s.reg x) (noBorrow (s.reg y) (s.reg x)))

/-- 8XYE (R121): `V[X]` shifted left by one in place, then the old bit 7 to VF; `Y` is ignored (R91). -/
def execShl (x _y : RegIx) (s : State) : Result :=
  .next (s.setRegFlag x (s.reg x <<< 1) (bitOutLeft (s.reg x)))

end Sys2Proof.Machine
end

