-- ==== Sys2Proof/Machine/Control.lean ====
section
/-! DEFINITION. Jump, call, return and jump with offset (R140 to R146). -/

namespace Sys2Proof.Machine

/-- 1NNN (R141). -/
def execJp (nnn : Addr12) (s : State) : Result := .next (s.jumpTo (zextAddr nnn))

/-- 2NNN (R142): the `pc` pushed is the address of the instruction after the call (conflict C1). -/
def execCall (nnn : Addr12) (s : State) : Result :=
  match s.push with
  | some t => .next (t.jumpTo (zextAddr nnn))
  | none => raise (.stackFault .overflow) s

/-- 00EE (R143). -/
def execRet (s : State) : Result :=
  match s.pop with
  | some t => .next t
  | none => raise (.stackFault .underflow) s

/-- BNNN (R144): the register is V0 whatever `NNN` is; the sum cannot exceed 0x10FE. -/
def execJpV0 (nnn : Addr12) (s : State) : Result := .next (s.jumpTo (zextAddr nnn + zextByte (s.reg 0)))

end Sys2Proof.Machine
end

