-- ==== Sys2Proof/Machine/Draw.lean ====
section
/-! DEFINITION. Draw sprite and clear screen (R155 to R163). -/

namespace Sys2Proof.Machine

/-- 00E0 (R161): every cell to 0, then `clear()` and `present()`. -/
def execCls (s : State) : Result := .next (({ s with disp := [] } : State).emit [.clear, .present])

/-- What DXYN draws: the `n` bytes from `I` on, at the coordinates read and reduced once, before VF is written
(R156, R157, R162). -/
def State.drawn (s : State) (x y : RegIx) (n : Nat) : Canvas :=
  drawSprite s.params ((s.reg x).toNat % s.params.displayW) ((s.reg y).toNat % s.params.displayH)
    (s.bytesAtIndex n) s.disp

/-- The state with a drawing taken over: the cells, VF as the collision flag, the drawing's commands and then `present()`
(R156, R160). -/
def State.takeCanvas (s : State) (c : Canvas) : State :=
  (({ s with disp := c.disp } : State).setFlag c.hit).emit (c.commands ++ [.present])

/-- DXYN (R156): the range check, then the drawing. -/
def execDrw (x y : RegIx) (n : Fin 16) (s : State) : Result :=
  withIndexRange n.val s (s.takeCanvas (s.drawn x y n.val))

end Sys2Proof.Machine
end

