-- ==== Sys2Proof/Machine/Index.lean ====
section
/-! DEFINITION. Index register, font address, BCD, register block store and load (R190 to R204). -/

namespace Sys2Proof.Machine

/-- ANNN (R191): `I <- NNN`. -/
def execLdI (nnn : Addr12) (s : State) : Result := .next (s.setIndex (zextAddr nnn))

/-- FX1E (R192): `I <- I + V[X]` on 16 bits, then VF from the unwrapped sum of the old values. -/
def execAddI (x : RegIx) (s : State) : Result :=
  .next ((s.setIndex (s.index + zextByte (s.reg x))).setFlag (indexOverflow s.index (s.reg x)))

/-- FX29 (R194): `I <- 0x050 + 5 * V[X][3:0]`. -/
def execLdF (x : RegIx) (s : State) : Result :=
  .next (s.setIndex (BitVec.ofNat 16 (fontBase + 5 * lowNibble (s.reg x))))

/-- The three decimal digits of a byte, a byte each: hundreds, tens, ones (R196). -/
def bcdDigits (b : Byte) : List Byte :=
  [BitVec.ofNat 8 (b.toNat / 100), BitVec.ofNat 8 (b.toNat / 10 % 10), BitVec.ofNat 8 (b.toNat % 10)]

/-- FX33 (R196). -/
def execLdB (x : RegIx) (s : State) : Result :=
  withIndexRange 3 s (s.storeBytes (s.ea 0) (bcdDigits (s.reg x)))

/-- FX55 (R198); `I` stays (R204). -/
def execStRegs (x : RegIx) (s : State) : Result :=
  withIndexRange (x.val + 1) s (s.storeBytes (s.ea 0) (s.regsUpTo x))

/-- FX65 (R200); `I` stays (R204). -/
def execLdRegs (x : RegIx) (s : State) : Result :=
  withIndexRange (x.val + 1) s (s.loadRegs x (fun j => s.byte (s.ea j)))

end Sys2Proof.Machine
end

