-- ==== Sys2Proof/Machine/Keypad.lean ====
section
/-! DEFINITION. Key skips and the key wait (R170 to R176). -/

namespace Sys2Proof.Machine

/-- EX9E (R171): skip if the key of the low nibble of `V[X]` is down (R173). -/
def execSkp (x : RegIx) (s : State) : Result := .next (s.skipIf (s.keyDown (lowNibble (s.reg x))))

/-- EXA1 (R172): skip if that key is up. -/
def execSknp (x : RegIx) (s : State) : Result := .next (s.skipIf (!s.keyDown (lowNibble (s.reg x))))

/-- A poll of the key wait: a delivered key goes to `V[X]` and ends the wait, no key leaves `pc` at this FX0A (R174). -/
def State.pollKey (s : State) (x : RegIx) : State :=
  match s.hostTurn.keyEvent with
  | some k => { s.setReg x (BitVec.ofNat 8 k.val) with awaiting := false }
  | none => s.stay

/-- FX0A (R174): the entry step sets `awaiting_input` and does not poll; every later step polls. -/
def execLdVxK (x : RegIx) (s : State) : Result :=
  .next (if s.awaiting then s.pollKey x else { s.stay with awaiting := true })

end Sys2Proof.Machine
end

