-- ==== Sys2Proof/Machine/Random.lean ====
section
/-! DEFINITION. Random (R150 to R152). -/

namespace Sys2Proof.Machine

/-- CXNN (R151): `V[X] <- rnd & NN`, `rnd` being what the host supplies to this step. -/
def execRnd (x : RegIx) (nn : Byte) (s : State) : Result := .next (s.setReg x (s.hostTurn.rnd &&& nn))

end Sys2Proof.Machine
end

