-- ==== Sys2Proof/Machine/Timers.lean ====
section
/-! DEFINITION. The timer instructions (R180 to R184) and the two countdown engines (R230 to R236). -/

namespace Sys2Proof.Machine

/-- FX07 (R181): `V[X] <- DT`. -/
def execLdVxDt (x : RegIx) (s : State) : Result := .next (s.setReg x s.dt)

/-- FX15 (R182): `DT <- V[X]`. -/
def execLdDtVx (x : RegIx) (s : State) : Result := .next { s with dt := s.reg x }

/-- FX18 (R183): `ST <- V[X]`. -/
def execLdStVx (x : RegIx) (s : State) : Result := .next { s with st := s.reg x }

/-- One countdown engine at one tick (R231): one less, and 0 stays 0. -/
def countDown (t : Byte) : Byte := if t = 0x00#8 then t else t - 0x01#8

/-- The tick (R231), an operation of the host (R7). -/
def tickTimers (s : State) : State := { s with dt := countDown s.dt, st := countDown s.st }

/-- One countdown engine after `n` ticks, in closed form (R231): a timer at 0 stays there whatever `n` is. -/
def countDownBy (n : Nat) (t : Byte) : Byte := if t = 0x00#8 then t else BitVec.ofNat 8 (t.toNat - n)

/-- The host's part between this step and the next: its ticks reach the timers, and its next turn comes up (R232). -/
def endTurn (s : State) : State :=
  { s with
    dt := countDownBy s.hostTurn.ticks s.dt
    st := countDownBy s.hostTurn.ticks s.st
    schedule := s.schedule.tail
    turn := s.turn + 1 }

end Sys2Proof.Machine
end

