-- ==== Sys2Proof/Syntax.lean ====
section
/-! DEFINITION. The 34 instructions (R87, R88), one constructor for each row of the opcode table. `x` and `y` are the
register fields `X` and `Y`, `n` the row count `N`, `nn` the immediate `NN`, `nnn` the address `NNN` (R83). -/

namespace Sys2Proof

/-- An instruction of the machine. -/
inductive Instr where
  /-- 00E0, `CLS`. -/
  | cls
  /-- 00EE, `RET`. -/
  | ret
  /-- 1NNN, `JP nnn`. -/
  | jp (nnn : Addr12)
  /-- 2NNN, `CALL nnn`. -/
  | call (nnn : Addr12)
  /-- 3XNN, `SE Vx, nn`. -/
  | seImm (x : RegIx) (nn : Byte)
  /-- 4XNN, `SNE Vx, nn`. -/
  | sneImm (x : RegIx) (nn : Byte)
  /-- 5XY0, `SE Vx, Vy`. -/
  | seReg (x y : RegIx)
  /-- 6XNN, `LD Vx, nn`. -/
  | ldImm (x : RegIx) (nn : Byte)
  /-- 7XNN, `ADD Vx, nn`. -/
  | addImm (x : RegIx) (nn : Byte)
  /-- 8XY0, `LD Vx, Vy`. -/
  | ldReg (x y : RegIx)
  /-- 8XY1, `OR Vx, Vy`. -/
  | orReg (x y : RegIx)
  /-- 8XY2, `AND Vx, Vy`. -/
  | andReg (x y : RegIx)
  /-- 8XY3, `XOR Vx, Vy`. -/
  | xorReg (x y : RegIx)
  /-- 8XY4, `ADD Vx, Vy`. -/
  | addReg (x y : RegIx)
  /-- 8XY5, `SUB Vx, Vy`. -/
  | sub (x y : RegIx)
  /-- 8XY6, `SHR Vx`; the `Y` field is part of the word and has no effect (R91). -/
  | shr (x y : RegIx)
  /-- 8XY7, `SUBN Vx, Vy`. -/
  | subn (x y : RegIx)
  /-- 8XYE, `SHL Vx`; the `Y` field is part of the word and has no effect (R91). -/
  | shl (x y : RegIx)
  /-- 9XY0, `SNE Vx, Vy`. -/
  | sneReg (x y : RegIx)
  /-- ANNN, `LD I, nnn`. -/
  | ldI (nnn : Addr12)
  /-- BNNN, `JP V0, nnn`. -/
  | jpV0 (nnn : Addr12)
  /-- CXNN, `RND Vx, nn`. -/
  | rnd (x : RegIx) (nn : Byte)
  /-- DXYN, `DRW Vx, Vy, n`: `n` is a row count, 0 to 15. -/
  | drw (x y : RegIx) (n : Fin 16)
  /-- EX9E, `SKP Vx`. -/
  | skp (x : RegIx)
  /-- EXA1, `SKNP Vx`. -/
  | sknp (x : RegIx)
  /-- FX07, `LD Vx, DT`. -/
  | ldVxDt (x : RegIx)
  /-- FX0A, `LD Vx, K`. -/
  | ldVxK (x : RegIx)
  /-- FX15, `LD DT, Vx`. -/
  | ldDtVx (x : RegIx)
  /-- FX18, `LD ST, Vx`. -/
  | ldStVx (x : RegIx)
  /-- FX1E, `ADD I, Vx`. -/
  | addI (x : RegIx)
  /-- FX29, `LD F, Vx`. -/
  | ldF (x : RegIx)
  /-- FX33, `LD B, Vx`. -/
  | ldB (x : RegIx)
  /-- FX55, `LD [I], Vx`: `x` is the inclusive upper bound of the register range. -/
  | stRegs (x : RegIx)
  /-- FX65, `LD Vx, [I]`: `x` is the inclusive upper bound of the register range. -/
  | ldRegs (x : RegIx)
  deriving DecidableEq, Repr

end Sys2Proof
end

