-- ==== Sys2Proof/Decode.lean ====
section
/-! DEFINITION. The Decoder (R80 to R96): fields of a word, the dispatch of R85, and the encoder, both from the encoding
column of R87. -/

namespace Sys2Proof

/-! ## Fields (R81) -/

/-- `F`, bits 15:12. -/
def fieldF (w : Word) : Nibble := w.extractLsb' 12 4

/-- `X`, bits 11:8, a register number. -/
def fieldX (w : Word) : RegIx := (w.extractLsb' 8 4).toFin

/-- `Y`, bits 7:4, a register number. -/
def fieldY (w : Word) : RegIx := (w.extractLsb' 4 4).toFin

/-- `N`, bits 3:0, as the selector of a family and as a bit field. -/
def fieldN (w : Word) : Nibble := w.extractLsb' 0 4

/-- `N`, bits 3:0, as the row count of DXYN (R83). -/
def fieldRows (w : Word) : Fin 16 := (w.extractLsb' 0 4).toFin

/-- `NN`, bits 7:0. -/
def fieldNN (w : Word) : Byte := w.extractLsb' 0 8

/-- `NNN`, bits 11:0. -/
def fieldNNN (w : Word) : Addr12 := w.extractLsb' 0 12

/-! ## The dispatch (R85) -/

/-- Family 0: the whole word is matched. -/
def decodeFamily0 (w : Word) : Option Instr :=
  if w = 0x00E0#16 then some .cls
  else if w = 0x00EE#16 then some .ret
  else none

/-- Family 8, by the low nibble. -/
def decodeFamily8 (w : Word) : Option Instr :=
  match (fieldN w).toNat with
  | 0x0 => some (.ldReg (fieldX w) (fieldY w))
  | 0x1 => some (.orReg (fieldX w) (fieldY w))
  | 0x2 => some (.andReg (fieldX w) (fieldY w))
  | 0x3 => some (.xorReg (fieldX w) (fieldY w))
  | 0x4 => some (.addReg (fieldX w) (fieldY w))
  | 0x5 => some (.sub (fieldX w) (fieldY w))
  | 0x6 => some (.shr (fieldX w) (fieldY w))
  | 0x7 => some (.subn (fieldX w) (fieldY w))
  | 0xE => some (.shl (fieldX w) (fieldY w))
  | _ => none

/-- Family E, by the low byte. -/
def decodeFamilyE (w : Word) : Option Instr :=
  match (fieldNN w).toNat with
  | 0x9E => some (.skp (fieldX w))
  | 0xA1 => some (.sknp (fieldX w))
  | _ => none

/-- Family F, by the low byte. -/
def decodeFamilyF (w : Word) : Option Instr :=
  match (fieldNN w).toNat with
  | 0x07 => some (.ldVxDt (fieldX w))
  | 0x0A => some (.ldVxK (fieldX w))
  | 0x15 => some (.ldDtVx (fieldX w))
  | 0x18 => some (.ldStVx (fieldX w))
  | 0x1E => some (.addI (fieldX w))
  | 0x29 => some (.ldF (fieldX w))
  | 0x33 => some (.ldB (fieldX w))
  | 0x55 => some (.stRegs (fieldX w))
  | 0x65 => some (.ldRegs (fieldX w))
  | _ => none

/-- The instruction a word stands for, `none` for one of the 21582 illegal words of R89. -/
def decodeWord (w : Word) : Option Instr :=
  match (fieldF w).toNat with
  | 0x0 => decodeFamily0 w
  | 0x1 => some (.jp (fieldNNN w))
  | 0x2 => some (.call (fieldNNN w))
  | 0x3 => some (.seImm (fieldX w) (fieldNN w))
  | 0x4 => some (.sneImm (fieldX w) (fieldNN w))
  | 0x5 => if fieldN w = 0#4 then some (.seReg (fieldX w) (fieldY w)) else none
  | 0x6 => some (.ldImm (fieldX w) (fieldNN w))
  | 0x7 => some (.addImm (fieldX w) (fieldNN w))
  | 0x8 => decodeFamily8 w
  | 0x9 => if fieldN w = 0#4 then some (.sneReg (fieldX w) (fieldY w)) else none
  | 0xA => some (.ldI (fieldNNN w))
  | 0xB => some (.jpV0 (fieldNNN w))
  | 0xC => some (.rnd (fieldX w) (fieldNN w))
  | 0xD => some (.drw (fieldX w) (fieldY w) (fieldRows w))
  | 0xE => decodeFamilyE w
  | _ => decodeFamilyF w

/-! ## Bytes (R64, R80) -/

/-- The word of two bytes in memory order: the byte at the lower address holds bits 15:8 (R64). -/
def wordOfBytes (hi lo : Byte) : Word := hi ++ lo

/-- The two bytes of a word in memory order (R64). -/
def bytesOfWord (w : Word) : List Byte := [w.extractLsb' 8 8, w.extractLsb' 0 8]

/-- Why bytes do not decode. -/
inductive DecodeReject where
  /-- Fewer than the two bytes of a word (R80) are there. -/
  | truncated
  /-- The two bytes are an illegal word (R89). -/
  | illegalWord (w : Word)
  deriving DecidableEq, Repr

/-- The instruction at the head of a list of bytes, with the bytes that follow it; total on any bytes. -/
def decode : List Byte → Except DecodeReject (Instr × List Byte)
  | hi :: lo :: rest =>
    match decodeWord (wordOfBytes hi lo) with
    | some i => .ok (i, rest)
    | none => .error (.illegalWord (wordOfBytes hi lo))
  | _ => .error .truncated

/-! ## The encoder (R82, R87) -/

/-- Format `A`: a family nibble and an address. -/
def encodeA (f : Nibble) (nnn : Addr12) : Word := f ++ nnn

/-- Formats `XI` and `XS`: a family nibble, a register and a low byte. -/
def encodeX (f : Nibble) (x : RegIx) (low : Byte) : Word := f ++ BitVec.ofFin (w := 4) x ++ low

/-- Formats `XY` and `XYN`: a family nibble, two registers and a low nibble. -/
def encodeXY (f : Nibble) (x y : RegIx) (low : Nibble) : Word :=
  f ++ BitVec.ofFin (w := 4) x ++ BitVec.ofFin (w := 4) y ++ low

/-- The word of an instruction. -/
def encodeWord : Instr → Word
  | .cls => 0x00E0#16
  | .ret => 0x00EE#16
  | .jp nnn => encodeA 0x1#4 nnn
  | .call nnn => encodeA 0x2#4 nnn
  | .seImm x nn => encodeX 0x3#4 x nn
  | .sneImm x nn => encodeX 0x4#4 x nn
  | .seReg x y => encodeXY 0x5#4 x y 0x0#4
  | .ldImm x nn => encodeX 0x6#4 x nn
  | .addImm x nn => encodeX 0x7#4 x nn
  | .ldReg x y => encodeXY 0x8#4 x y 0x0#4
  | .orReg x y => encodeXY 0x8#4 x y 0x1#4
  | .andReg x y => encodeXY 0x8#4 x y 0x2#4
  | .xorReg x y => encodeXY 0x8#4 x y 0x3#4
  | .addReg x y => encodeXY 0x8#4 x y 0x4#4
  | .sub x y => encodeXY 0x8#4 x y 0x5#4
  | .shr x y => encodeXY 0x8#4 x y 0x6#4
  | .subn x y => encodeXY 0x8#4 x y 0x7#4
  | .shl x y => encodeXY 0x8#4 x y 0xE#4
  | .sneReg x y => encodeXY 0x9#4 x y 0x0#4
  | .ldI nnn => encodeA 0xA#4 nnn
  | .jpV0 nnn => encodeA 0xB#4 nnn
  | .rnd x nn => encodeX 0xC#4 x nn
  | .drw x y n => encodeXY 0xD#4 x y (BitVec.ofFin n)
  | .skp x => encodeX 0xE#4 x 0x9E#8
  | .sknp x => encodeX 0xE#4 x 0xA1#8
  | .ldVxDt x => encodeX 0xF#4 x 0x07#8
  | .ldVxK x => encodeX 0xF#4 x 0x0A#8
  | .ldDtVx x => encodeX 0xF#4 x 0x15#8
  | .ldStVx x => encodeX 0xF#4 x 0x18#8
  | .addI x => encodeX 0xF#4 x 0x1E#8
  | .ldF x => encodeX 0xF#4 x 0x29#8
  | .ldB x => encodeX 0xF#4 x 0x33#8
  | .stRegs x => encodeX 0xF#4 x 0x55#8
  | .ldRegs x => encodeX 0xF#4 x 0x65#8

/-- The bytes of an instruction in memory order. -/
def encode (i : Instr) : List Byte := bytesOfWord (encodeWord i)

/-! ## The opcode map (R87, R96) -/

/-- A row of R87: a word `w` is the row's instruction exactly when `w &&& mask = value`; `value` is the column the rule
names `match`. -/
structure OpcodeRow where
  /-- The column `id`. -/
  id : String
  /-- The column `match`. -/
  value : Word
  /-- The column `mask`. -/
  mask : Word
  deriving DecidableEq, Repr

/-- The word is the row's instruction. -/
def OpcodeRow.covers (r : OpcodeRow) (w : Word) : Bool := w &&& r.mask == r.value

/-- Rows of the formats `Z`, `A` and `XI` (R87). -/
def opcodeRowsPlain : List OpcodeRow :=
  [⟨"CLS", 0x00E0#16, 0xFFFF#16⟩, ⟨"RET", 0x00EE#16, 0xFFFF#16⟩, ⟨"JP", 0x1000#16, 0xF000#16⟩,
   ⟨"CALL", 0x2000#16, 0xF000#16⟩, ⟨"SE_IMM", 0x3000#16, 0xF000#16⟩, ⟨"SNE_IMM", 0x4000#16, 0xF000#16⟩,
   ⟨"LD_IMM", 0x6000#16, 0xF000#16⟩, ⟨"ADD_IMM", 0x7000#16, 0xF000#16⟩, ⟨"LD_I", 0xA000#16, 0xF000#16⟩,
   ⟨"JP_V0", 0xB000#16, 0xF000#16⟩, ⟨"RND", 0xC000#16, 0xF000#16⟩]

/-- Rows of the formats `XY` and `XYN` (R87). -/
def opcodeRowsTwoRegs : List OpcodeRow :=
  [⟨"SE_REG", 0x5000#16, 0xF00F#16⟩, ⟨"LD_REG", 0x8000#16, 0xF00F#16⟩, ⟨"OR", 0x8001#16, 0xF00F#16⟩,
   ⟨"AND", 0x8002#16, 0xF00F#16⟩, ⟨"XOR", 0x8003#16, 0xF00F#16⟩, ⟨"ADD_REG", 0x8004#16, 0xF00F#16⟩,
   ⟨"SUB", 0x8005#16, 0xF00F#16⟩, ⟨"SHR", 0x8006#16, 0xF00F#16⟩, ⟨"SUBN", 0x8007#16, 0xF00F#16⟩,
   ⟨"SHL", 0x800E#16, 0xF00F#16⟩, ⟨"SNE_REG", 0x9000#16, 0xF00F#16⟩, ⟨"DRW", 0xD000#16, 0xF000#16⟩]

/-- Rows of the format `XS` (R87). -/
def opcodeRowsSelected : List OpcodeRow :=
  [⟨"SKP", 0xE09E#16, 0xF0FF#16⟩, ⟨"SKNP", 0xE0A1#16, 0xF0FF#16⟩, ⟨"LD_VX_DT", 0xF007#16, 0xF0FF#16⟩,
   ⟨"LD_VX_K", 0xF00A#16, 0xF0FF#16⟩, ⟨"LD_DT_VX", 0xF015#16, 0xF0FF#16⟩, ⟨"LD_ST_VX", 0xF018#16, 0xF0FF#16⟩,
   ⟨"ADD_I", 0xF01E#16, 0xF0FF#16⟩, ⟨"LD_F", 0xF029#16, 0xF0FF#16⟩, ⟨"LD_B", 0xF033#16, 0xF0FF#16⟩,
   ⟨"ST_REGS", 0xF055#16, 0xF0FF#16⟩, ⟨"LD_REGS", 0xF065#16, 0xF0FF#16⟩]

/-- The 34 rows of R87, grouped by format. -/
def opcodeRows : List OpcodeRow := opcodeRowsPlain ++ opcodeRowsTwoRegs ++ opcodeRowsSelected

/-- The row an instruction belongs to. -/
def rowOf : Instr → OpcodeRow
  | .cls => ⟨"CLS", 0x00E0#16, 0xFFFF#16⟩
  | .ret => ⟨"RET", 0x00EE#16, 0xFFFF#16⟩
  | .jp _ => ⟨"JP", 0x1000#16, 0xF000#16⟩
  | .call _ => ⟨"CALL", 0x2000#16, 0xF000#16⟩
  | .seImm _ _ => ⟨"SE_IMM", 0x3000#16, 0xF000#16⟩
  | .sneImm _ _ => ⟨"SNE_IMM", 0x4000#16, 0xF000#16⟩
  | .seReg _ _ => ⟨"SE_REG", 0x5000#16, 0xF00F#16⟩
  | .ldImm _ _ => ⟨"LD_IMM", 0x6000#16, 0xF000#16⟩
  | .addImm _ _ => ⟨"ADD_IMM", 0x7000#16, 0xF000#16⟩
  | .ldReg _ _ => ⟨"LD_REG", 0x8000#16, 0xF00F#16⟩
  | .orReg _ _ => ⟨"OR", 0x8001#16, 0xF00F#16⟩
  | .andReg _ _ => ⟨"AND", 0x8002#16, 0xF00F#16⟩
  | .xorReg _ _ => ⟨"XOR", 0x8003#16, 0xF00F#16⟩
  | .addReg _ _ => ⟨"ADD_REG", 0x8004#16, 0xF00F#16⟩
  | .sub _ _ => ⟨"SUB", 0x8005#16, 0xF00F#16⟩
  | .shr _ _ => ⟨"SHR", 0x8006#16, 0xF00F#16⟩
  | .subn _ _ => ⟨"SUBN", 0x8007#16, 0xF00F#16⟩
  | .shl _ _ => ⟨"SHL", 0x800E#16, 0xF00F#16⟩
  | .sneReg _ _ => ⟨"SNE_REG", 0x9000#16, 0xF00F#16⟩
  | .ldI _ => ⟨"LD_I", 0xA000#16, 0xF000#16⟩
  | .jpV0 _ => ⟨"JP_V0", 0xB000#16, 0xF000#16⟩
  | .rnd _ _ => ⟨"RND", 0xC000#16, 0xF000#16⟩
  | .drw _ _ _ => ⟨"DRW", 0xD000#16, 0xF000#16⟩
  | .skp _ => ⟨"SKP", 0xE09E#16, 0xF0FF#16⟩
  | .sknp _ => ⟨"SKNP", 0xE0A1#16, 0xF0FF#16⟩
  | .ldVxDt _ => ⟨"LD_VX_DT", 0xF007#16, 0xF0FF#16⟩
  | .ldVxK _ => ⟨"LD_VX_K", 0xF00A#16, 0xF0FF#16⟩
  | .ldDtVx _ => ⟨"LD_DT_VX", 0xF015#16, 0xF0FF#16⟩
  | .ldStVx _ => ⟨"LD_ST_VX", 0xF018#16, 0xF0FF#16⟩
  | .addI _ => ⟨"ADD_I", 0xF01E#16, 0xF0FF#16⟩
  | .ldF _ => ⟨"LD_F", 0xF029#16, 0xF0FF#16⟩
  | .ldB _ => ⟨"LD_B", 0xF033#16, 0xF0FF#16⟩
  | .stRegs _ => ⟨"ST_REGS", 0xF055#16, 0xF0FF#16⟩
  | .ldRegs _ => ⟨"LD_REGS", 0xF065#16, 0xF0FF#16⟩

/-! ## The host's numbering -/

/-- The word whose low `nbits` bits are those of `w` and whose other bits are 0. The table's words are one 16-bit word,
and its bit 0 is that word's least significant bit. -/
def tableWord (nbits w : Nat) : Word := BitVec.ofNat 16 (w % 2 ^ nbits)

/-- The instruction the decoder reads from a word numbered as the opcode table numbers it: the word is laid out as memory
holds it and given to `decode`. -/
def decodeTableWord (nbits w : Nat) : Option Instr :=
  match decode (bytesOfWord (tableWord nbits w)) with
  | .ok (i, _) => some i
  | .error _ => none

end Sys2Proof
end

