-- ==== Sys2Proof/Machine/Fetch.lean ====
section
/-! DEFINITION. The fetch (R62 to R64) and the step algorithm around the Executor (R84). -/

namespace Sys2Proof.Machine

/-- The outputs of the step before are taken by the host before a step begins (R7, R9). -/
def beginStep (s : State) : State := { s with commands := [], error := none }

/-- The word at `pc` and `pc + 1`, the byte at `pc` in bits 15:8 (R60, R62). Evenness is not required (R63). -/
def State.fetchWord (s : State) : Word := wordOfBytes (s.byte s.pc.toNat) (s.byte (s.pc.toNat + 1))

/-- The lowest address above 0xFFF that a fetch at `pc` would touch, if there is one: `pc0 > 0xFFE` faults (R62). -/
def State.fetchFault (s : State) : Option Nat := rangeFault s.pc.toNat 2

/-- Fetch, decode, execute (R84), with the checks in the order of R216. A fetch that faults does not advance `pc`; an
illegal word is raised after the advance (R211, R214). -/
def fetchDecode (execute : Instr → State → Result) (s : State) : Result :=
  match s.fetchFault with
  | some a => raise (.memoryRangeFault a) s
  | none =>
    match decodeWord s.fetchWord with
    | none => raise (.unknownInstruction s.fetchWord) s.advance
    | some i => execute i s.advance

/-- The state whose next fetch reads the word `w`: its bytes stored at `pc`, in memory order. Where no fetch can succeed
at `pc` (above 0xFFE), `pc` is set to the entry point first. -/
def State.withWordAtPc (s : State) (w : Word) : State :=
  match s.fetchFault with
  | none => s.storeBytes s.pc.toNat (bytesOfWord w)
  | some _ => ({ s with pc := BitVec.ofNat 16 programBase } : State).storeBytes programBase (bytesOfWord w)

end Sys2Proof.Machine
end

