-- ==== Sys2Proof/Machine/Step.lean ====
section
/-! DEFINITION. One step of the machine: the block's `step` (R7, R84) with the host's ticks up to the next one (R232). -/

namespace Sys2Proof.Machine

/-- One step. It reads the inputs of the coming host turn, and where it goes on, that turn's ticks follow it. -/
def step (s : State) : Host.Outcome State Fault Refusal := onNext endTurn (fetchDecode exec (beginStep s))

/-- The state with an instruction word, numbered as the opcode table numbers it, stored where `step` fetches next. -/
def State.withFetchWord (s : State) (nbits w : Nat) : State := s.withWordAtPc (tableWord nbits w)

end Sys2Proof.Machine
end

