-- ==== Sys2Proof/WellFormed.lean ====
section
/-! DEFINITION. The checks on terms that a type alone does not make.

An INSTRUCTION needs none: R83 gives every operand the range of its field (a register number 0 to 15, a row count 0 to
15, an immediate of 8 or 12 bits) and R91 leaves no field value illegal, and those ranges are the types of the operands
of `Instr`, so every term of `Instr` is an instruction of R87. What can be ill formed is what the platform supplies:
the parameters of R12 and the program image of R254. -/

namespace Sys2Proof

/-- The parameters are ones R12 and R56 allow: a display of positive size, exactly 80 font bytes, and no more initial
bytes than there is memory. -/
abbrev Params.WellFormed (p : Params) : Prop :=
  0 < p.displayW ∧ 0 < p.displayH ∧ p.font.length = fontSize ∧ p.memInit.length ≤ memorySize

/-- The program image fits the program-loadable region: 0 to 3584 bytes, of any content (R254). -/
abbrev ImageWellFormed (image : List Byte) : Prop := image.length ≤ maxImage

end Sys2Proof
end

