-- ==== Sys2Proof/Machine/HostInterface.lean ====
section
/-! DEFINITION. The operations the block exposes to its host (R7) and its level outputs (R9). The tick is `tickTimers` of
Machine/Timers.lean. -/

namespace Sys2Proof.Machine

/-- `reset(image)` for given parameters and policy (R38, R250, R254): the reset state with the image's bytes from 0x200 on.
`none` for an image that does not fit, which never reaches the block (R254). -/
def resetWith (p : Params) (onError : OnError) (schedule : List HostTurn) (image : List Byte) : Option State :=
  if ImageWellFormed image then
    some { State.reset with
      params := p, onError := onError, schedule := schedule, mem := Memory.store p programBase image [] }
  else none

/-- `step(keys, key_event, rnd)` (R7): one step with these inputs and no tick after it. -/
def stepWith (keys : BitVec 16) (keyEvent : Option KeyIx) (rnd : Byte) (s : State) : Result :=
  step { s with schedule := { keys := keys, keyEvent := keyEvent, rnd := rnd, ticks := 0 } :: s.schedule }

/-- `is_awaiting_input()` (R176). -/
def isAwaitingInput (s : State) : Bool := s.awaiting

/-- `sound_active`, 1 exactly when `ST != 0` (R9 (c), R234). -/
def soundActive (s : State) : Bool := s.st != 0x00#8

end Sys2Proof.Machine
end

