-- ==== Sys2Proof/Safety.lean ====
section
/-! DEFINITION. What counts as a good state and a safe run, and the words the statements use. -/

namespace Sys2Proof.Machine

/-- The canonical state: the parameters are ones the spec allows, and memory and display are in their canonical forms, so
that equal memories and equal displays are equal data and every cell is 0 or 1 (R39). `SP <= 16` is its type. -/
def State.Canonical (s : State) : Prop :=
  s.params.WellFormed ∧ Memory.wf s.params s.mem ∧ Display.wf s.params s.disp

/-- While the machine awaits a key, the word at `pc` can be fetched and is an FX0A (R39). -/
def State.AwaitsAtKeyWait (s : State) : Prop :=
  s.awaiting = true → s.pc.toNat ≤ 0xFFE ∧ ∃ x, decodeWord s.fetchWord = some (.ldVxK x)

/-- The program has finished (R264): `pc` is at a jump to itself and no key is awaited. A convention for claims. -/
def State.Finished (s : State) : Prop :=
  s.pc.toNat ≤ 0xFFE ∧ s.awaiting = false ∧ ∃ nnn, decodeWord s.fetchWord = some (.jp nnn) ∧ zextAddr nnn = s.pc

/-- Every byte of memory reads as before. -/
def SameMemory (s t : State) : Prop := ∀ a, t.byte a = s.byte a

/-- Every byte of memory outside the `n` bytes from `base` on reads as before. -/
def SameMemoryOutside (base n : Nat) (s t : State) : Prop :=
  ∀ a, ¬(base ≤ a ∧ a < base + n) → t.byte a = s.byte a

/-- The lowest address above 0xFFF among `n > 0` consecutive ones that run past 0xFFF (R213). -/
def offending (base : Nat) : Nat := if base > 0x0FFF then base else 0x1000

/-- The offsets (row, column) of a sprite of `n` rows in drawing order: top row first, leftmost pixel first (R156). -/
def spriteOffsets (n : Nat) : List (Nat × Nat) :=
  (List.range n).flatMap (fun r => (List.range 8).map (fun c => (r, c)))

/-- The sprite at `I` has a set bit at an offset: bit 7 of the row's byte is column 0 (R158). -/
def State.spriteBit (s : State) (rc : Nat × Nat) : Bool := (s.byte (s.ea rc.1)).getLsbD (7 - rc.2)

/-- The cell, as (column, row), that an offset falls on when the sprite is drawn at the coordinates in `V[x]` and `V[y]`
(R157). -/
def State.spriteCell (s : State) (x y : RegIx) (rc : Nat × Nat) : Nat × Nat :=
  (((s.reg x).toNat % s.params.displayW + rc.2) % s.params.displayW,
   ((s.reg y).toNat % s.params.displayH + rc.1) % s.params.displayH)

/-- `disp[x][y] = 1`. -/
def State.pixel (s : State) (xy : Nat × Nat) : Bool := Display.pixel s.params s.disp xy.1 xy.2

/-- The error the instruction at `pc` is due to return, by R210 to R213, with the checks in the order of R216: fetch range,
legality of the word, the instruction's own check. -/
def State.errorDue (s : State) : Option Fault :=
  if s.pc.toNat > 0xFFE then some (.memoryRangeFault (offending s.pc.toNat))
  else
    match decodeWord s.fetchWord with
    | none => some (.unknownInstruction s.fetchWord)
    | some (.call _) => if s.sp.val = 16 then some (.stackFault .overflow) else none
    | some .ret => if s.sp.val = 0 then some (.stackFault .underflow) else none
    | some (.drw _ _ n) =>
      if 0 < n.val ∧ s.index.toNat + n.val - 1 > 0xFFF then some (.memoryRangeFault (offending s.index.toNat)) else none
    | some (.ldB _) =>
      if s.index.toNat + 2 > 0xFFF then some (.memoryRangeFault (offending s.index.toNat)) else none
    | some (.stRegs x) | some (.ldRegs x) =>
      if s.index.toNat + x.val > 0xFFF then some (.memoryRangeFault (offending s.index.toNat)) else none
    | some _ => none

/-- The first `k` steps are all safe: a run under the policy `halt` that has not ended in an error. -/
def State.SafeFor : Nat → State → Prop
  | 0, _ => True
  | k + 1, s => ∃ t, step s = .next t ∧ t.error = none ∧ State.SafeFor k t

/-- A run without end: a step follows each step, which is the half of R232's fairness that a step eventually comes. -/
def IsRun (r : Nat → State) : Prop := ∀ k, step (r k) = .next (r (k + 1))

/-- The other half of R232's fairness: at every point of the run a tick is still to come. -/
def TicksKeepComing (r : Nat → State) : Prop := ∀ k, ∃ j, k ≤ j ∧ 0 < (r j).hostTurn.ticks

end Sys2Proof.Machine
end

