-- ==== Sys2Proof/Certificates/Slice0/Obligations.lean ====
section
/-! DEFINITION. The statements for the provers. Numbers of rules are those of the spec. A frame is written as an equation
of states: `t = { s with v := t.v }` says that every field but the general registers is as it was, and `SameMemory` says
the same of memory once more through the reading of one byte. -/

open Sys2Proof Sys2Proof.Machine

/-! ## Encoding -/

/-- Decoding the bytes of any instruction, with any bytes after them, gives the instruction and those bytes (R81, R87;
the opcode numbers are decision D8 of the spec). -/
def Obligations.DecodeOfEncodeIsTheInstruction : Prop :=
  ∀ (i : Instr) (rest : List Byte), decode (encode i ++ rest) = .ok (i, rest)

/-- A word that decodes is the encoding of what it decodes to, so that no bit of it is dropped (R81, R87). That this holds of
8XY6 and 8XYE, whose `Y` R91 leaves unused, is the model's choice: their constructors keep `Y` (log entry 23). -/
def Obligations.EncodeOfDecodedWordIsTheWord : Prop :=
  ∀ (w : Word) (i : Instr), decodeWord w = some i → encodeWord i = w

/-- A word decodes to an instruction of a row exactly when that row of R87 covers it, and to none exactly when no row
does (R85, R89, R96; decisions D8 and D9 of the spec). -/
def Obligations.DecoderFollowsTheOpcodeMap : Prop :=
  ∀ w : Word,
    (∀ i, decodeWord w = some i → rowOf i ∈ opcodeRows ∧ (rowOf i).covers w = true) ∧
    (∀ r ∈ opcodeRows, r.covers w = true → ∃ i, decodeWord w = some i ∧ rowOf i = r) ∧
    (decodeWord w = none ↔ ∀ r ∈ opcodeRows, r.covers w = false)

/-- R88: 34 rows, 2 in family 0, 9 in family 8, 2 in family E, 9 in family F and one in each other family; at most one
row covers a word. -/
def Obligations.OpcodeRowsAreDisjoint : Prop :=
  opcodeRows.length = 34 ∧
  (∀ f : Nibble, (opcodeRows.filter (fun r => fieldF r.value == f)).length =
    if f = 0x0#4 then 2 else if f = 0x8#4 then 9 else if f = 0xE#4 then 2 else if f = 0xF#4 then 9 else 1) ∧
  ∀ (w : Word), ∀ r ∈ opcodeRows, ∀ q ∈ opcodeRows, r.covers w = true → q.covers w = true → r = q

/-- The words of the table in the spec's test vectors 2.1 and the words the source attests (R87) decode to the
instructions they stand for. -/
def Obligations.AttestedWordsDecode : Prop :=
  decodeWord 0xD12F#16 = some (.drw 1 2 15) ∧ decodeWord 0x8AB4#16 = some (.addReg 10 11) ∧
  decodeWord 0xFA65#16 = some (.ldRegs 10) ∧ decodeWord 0x00E0#16 = some .cls ∧ decodeWord 0x00EE#16 = some .ret ∧
  decodeWord 0x5120#16 = some (.seReg 1 2) ∧ decodeWord 0x80AE#16 = some (.shl 0 10) ∧
  decodeWord 0xE19E#16 = some (.skp 1) ∧ decodeWord 0x1200#16 = some (.jp 0x200#12) ∧
  decodeWord 0x6A05#16 = some (.ldImm 10 0x05#8) ∧ decodeWord 0x7A03#16 = some (.addImm 10 0x03#8) ∧
  decodeWord 0xA205#16 = some (.ldI 0x205#12) ∧ decodeWord 0xF055#16 = some (.stRegs 0)

/-! ## The step -/

/-- R84: where the word at `pc` can be fetched and decodes to `i`, a step is `exec i` on the state with `pc` advanced by 2.
Two parts around it are the model's choice and in no rule: the step first empties the outputs of the step before (log
entry 9), and ends with the host's ticks and the turn to the host's next inputs (log entries 10 and 2). -/
def Obligations.StepRunsTheDecodedInstruction : Prop :=
  ∀ (s : State) (i : Instr), s.pc.toNat ≤ 0xFFE →
    decodeWord (s.byte s.pc.toNat ++ s.byte (s.pc.toNat + 1)) = some i →
    step s = onNext endTurn (exec i { s with commands := [], error := none, pc := s.pc + 2#16 })

/-- R216, with R62 and R210 to R213: a step returns exactly the error that is due, checked in the order fetch range,
legality of the word, own check; where none is due it goes on and returns none. It never refuses. The range error is
decision D10 of the spec. -/
def Obligations.StepReturnsExactlyTheErrorDue : Prop :=
  ∀ s : State,
    (∀ f, s.errorDue = some f → s.onError = .halt → step s = .fault f) ∧
    (∀ f, s.errorDue = some f → s.onError = .goOn → ∃ t, step s = .next t ∧ t.error = some f) ∧
    (s.errorDue = none → ∃ t, step s = .next t ∧ t.error = none)

/-- R214 (decision D13 of the spec): under the policy that goes on, a step that returned an error has left everything
but `pc` as it was, and `pc` advanced by 2, or unchanged where the fetch itself faulted. Around it stand the outputs
of the step and the host's turn. That outputs are emptied and ticks made around the instruction is the model's own
step (log entries 2, 9 and 10). -/
def Obligations.ErrorsLeaveOnlyTheAdvancedPc : Prop :=
  ∀ (s t : State) (f : Fault), step s = .next t → t.error = some f →
    t = endTurn { s with
      commands := [], error := some f, pc := if s.pc.toNat > 0xFFE then s.pc else s.pc + 2#16 }

/-- R217 (decision D14 of the spec): the policy is the host's and does not reach into the block. With either policy an
instruction ends in the same next state, or raises the same error from the state it was given. -/
def Obligations.ErrorPolicyDoesNotReachExecution : Prop :=
  ∀ (i : Instr) (s : State),
    (∃ t : State, exec i { s with onError := .halt } = .next { t with onError := .halt } ∧
      exec i { s with onError := .goOn } = .next { t with onError := .goOn }) ∨
    (∃ f, exec i { s with onError := .halt } = .fault f ∧
      exec i { s with onError := .goOn } = .next { s with onError := .goOn, error := some f })

/-- Storing a word by the interface makes the next step run it: from every state, and without touching anything but
memory where the fetch at `pc` can succeed (the model's interface, log entry 8). That outputs are emptied and ticks
made around the instruction is the model's own step (log entries 2, 9 and 10). -/
def Obligations.StoredWordIsTheNextOneRun : Prop :=
  ∀ (s : State) (w : Nat) (i : Instr), decodeTableWord 16 w = some i →
    ∃ u : State, s.withFetchWord 16 w = u ∧ u.pc.toNat ≤ 0xFFE ∧
      u = { s with mem := u.mem, pc := if s.pc.toNat ≤ 0xFFE then s.pc else 0x0200#16 } ∧
      (∀ a, a ≠ u.pc.toNat → a ≠ u.pc.toNat + 1 → u.byte a = s.byte a) ∧
      step u = onNext endTurn (exec i { u with commands := [], error := none, pc := u.pc + 2#16 })

/-! ## Memory -/

/-- R61: a byte write sets that byte and changes no other. -/
def Obligations.WriteSetsOneByte : Prop :=
  ∀ (p : Params) (m : List Host.Cell) (a b : Nat) (v : Byte),
    Memory.read p (Memory.write p a v m) b = if b = a then v else Memory.read p m b

/-- R58 and R70 (decision D10 of the spec): the range check of an instruction that touches `n` consecutive addresses
passes exactly when every one of them translates, and otherwise answers the lowest that does not. -/
def Obligations.RangeCheckFindsTheLowestBadAddress : Prop :=
  ∀ base n : Nat,
    (rangeFault base n = none ↔ ∀ j < n, translateAddress (base + j) = some (base + j)) ∧
    (∀ a, rangeFault base n = some a ↔
      (∃ j < n, a = base + j) ∧ translateAddress a = none ∧ ∀ j < n, base + j < a → translateAddress (base + j) ≠ none)

/-- R70 and R213 (decisions D10 and D13 of the spec): the instructions that touch memory through `I` return
`MemoryRangeFault`, before any effect, where an address they touch lies above 0xFFF. -/
def Obligations.IndexedAccessPastTheEndIsAnError : Prop :=
  ∀ (i : Instr) (s : State) (n : Nat),
    ((∃ x y, ∃ k : Fin 16, i = .drw x y k ∧ n = k.val) ∨ (∃ x, i = .ldB x ∧ n = 3) ∨
      (∃ x : RegIx, i = .stRegs x ∧ n = x.val + 1) ∨ (∃ x : RegIx, i = .ldRegs x ∧ n = x.val + 1)) →
    0 < n → s.index.toNat + n - 1 > 0xFFF →
    (s.onError = .halt → exec i s = .fault (.memoryRangeFault (offending s.index.toNat))) ∧
    (s.onError = .goOn → exec i s = .next { s with error := some (.memoryRangeFault (offending s.index.toNat)) })

/-- R64 and R68: two bytes that FX55 has stored at `a` and `a + 1` are what the very next fetch at `a` reads, the first
in the high byte. -/
def Obligations.FetchSeesStoredRegisters : Prop :=
  ∀ (x : RegIx) (s : State) (j : Nat) (h : j + 1 < 16), j + 1 ≤ x.val → s.index.toNat + x.val ≤ 0xFFF →
    ∃ t, exec (.stRegs x) s = .next t ∧
      ({ t with pc := BitVec.ofNat 16 (s.index.toNat + j) } : State).fetchWord = s.reg ⟨j, Nat.lt_of_succ_lt h⟩ ++ s.reg ⟨j + 1, h⟩

/-- R190: no instruction but FX33 and FX55 changes memory. -/
def Obligations.OnlyBcdAndStoreWriteMemory : Prop :=
  ∀ (i : Instr) (s t : State), exec i s = .next t → t.mem ≠ s.mem → (∃ x, i = .ldB x) ∨ (∃ x, i = .stRegs x)

/-! ## Load, add immediate, arithmetic and logic -/

/-- R111: 6XNN is the words 0x6, `X`, `NN`, and no other; it writes `NN` to `VX` and nothing else. -/
def Obligations.LoadImmediateWritesVx : Prop :=
  ∀ (x : RegIx) (nn : Byte) (s : State),
    (∀ w : Word, decodeWord w = some (.ldImm x nn) ↔ w = 0x6#4 ++ BitVec.ofFin (w := 4) x ++ nn) ∧
    ∃ t, exec (.ldImm x nn) s = .next t ∧
      (∀ r, t.reg r = if r = x then nn else s.reg r) ∧ t = { s with v := t.v } ∧ SameMemory s t

/-- R112 (decision D18 of the spec): 7XNN adds modulo 256 and writes no flag. -/
def Obligations.AddImmediateWrapsWithoutFlag : Prop :=
  ∀ (x : RegIx) (nn : Byte) (s : State), ∃ t, exec (.addImm x nn) s = .next t ∧
    (∀ r, (t.reg r).toNat = if r = x then ((s.reg x).toNat + nn.toNat) % 256 else (s.reg r).toNat) ∧
    t = { s with v := t.v } ∧ SameMemory s t

/-- R113 to R116 (decision D17 of the spec): copy, OR, AND and XOR, bit by bit, into `VX`; VF is written by none of them
unless it is `VX`. -/
def Obligations.CopyAndLogicWriteVx : Prop :=
  ∀ (x y : RegIx) (s : State) (i : Instr) (f : Bool → Bool → Bool),
    ((i = .ldReg x y ∧ f = fun _ b => b) ∨ (i = .orReg x y ∧ f = or) ∨ (i = .andReg x y ∧ f = and) ∨
      (i = .xorReg x y ∧ f = xor)) →
    ∃ t, exec i s = .next t ∧
      (∀ r, r ≠ x → t.reg r = s.reg r) ∧
      (∀ k < 8, (t.reg x).getLsbD k = f ((s.reg x).getLsbD k) ((s.reg y).getLsbD k)) ∧
      t = { s with v := t.v } ∧ SameMemory s t

/-- R117: 8XY4 writes the sum modulo 256 to `VX` and then the carry to VF, both from the operands read before. -/
def Obligations.AddRegisterSumsAndCarries : Prop :=
  ∀ (x y : RegIx) (s : State), ∃ t, exec (.addReg x y) s = .next t ∧
    (∀ r, (t.reg r).toNat =
      if r = 15 then (if (s.reg x).toNat + (s.reg y).toNat > 255 then 1 else 0)
      else if r = x then ((s.reg x).toNat + (s.reg y).toNat) % 256 else (s.reg r).toNat) ∧
    t = { s with v := t.v } ∧ SameMemory s t

/-- R118: 8XY5 writes `VX - VY` modulo 256 to `VX` and then "no borrow" to VF. -/
def Obligations.SubtractWrapsAndFlagsNoBorrow : Prop :=
  ∀ (x y : RegIx) (s : State), ∃ t, exec (.sub x y) s = .next t ∧
    (∀ r, (t.reg r).toNat =
      if r = 15 then (if (s.reg x).toNat ≥ (s.reg y).toNat then 1 else 0)
      else if r = x then ((s.reg x).toNat + 256 - (s.reg y).toNat) % 256 else (s.reg r).toNat) ∧
    t = { s with v := t.v } ∧ SameMemory s t

/-- R120: 8XY7 writes `VY - VX` modulo 256 to `VX` and then "no borrow" to VF. -/
def Obligations.ReverseSubtractWrapsAndFlagsNoBorrow : Prop :=
  ∀ (x y : RegIx) (s : State), ∃ t, exec (.subn x y) s = .next t ∧
    (∀ r, (t.reg r).toNat =
      if r = 15 then (if (s.reg y).toNat ≥ (s.reg x).toNat then 1 else 0)
      else if r = x then ((s.reg y).toNat + 256 - (s.reg x).toNat) % 256 else (s.reg r).toNat) ∧
    t = { s with v := t.v } ∧ SameMemory s t

/-- R119: 8XY6 halves `VX` in place, then writes the bit shifted out to VF, whatever `Y` is. -/
def Obligations.ShiftRightHalvesInPlace : Prop :=
  ∀ (x y : RegIx) (s : State), ∃ t, exec (.shr x y) s = .next t ∧
    (∀ r, (t.reg r).toNat =
      if r = 15 then (s.reg x).toNat % 2 else if r = x then (s.reg x).toNat / 2 else (s.reg r).toNat) ∧
    t = { s with v := t.v } ∧ SameMemory s t

/-- R121: 8XYE doubles `VX` in place modulo 256, then writes the bit shifted out to VF, whatever `Y` is. -/
def Obligations.ShiftLeftDoublesInPlace : Prop :=
  ∀ (x y : RegIx) (s : State), ∃ t, exec (.shl x y) s = .next t ∧
    (∀ r, (t.reg r).toNat =
      if r = 15 then (s.reg x).toNat / 128 else if r = x then 2 * (s.reg x).toNat % 256 else (s.reg r).toNat) ∧
    t = { s with v := t.v } ∧ SameMemory s t

/-- R37 and R22: an instruction that changes a general register is a flag writer and the register is VF, or names the
register as its destination `X`, or is FX65 with the register in its range. -/
def Obligations.RegistersChangeOnlyByTheirWriters : Prop :=
  ∀ (i : Instr) (s t : State) (r : RegIx), exec i s = .next t → t.reg r ≠ s.reg r →
    (r = 15 ∧ ((∃ x y, i = .addReg x y) ∨ (∃ x y, i = .sub x y) ∨ (∃ x y, i = .subn x y) ∨ (∃ x y, i = .shr x y) ∨
      (∃ x y, i = .shl x y) ∨ (∃ x y n, i = .drw x y n) ∨ (∃ x, i = .addI x))) ∨
    (∃ nn, i = .ldImm r nn) ∨ (∃ nn, i = .addImm r nn) ∨ (∃ y, i = .ldReg r y) ∨ (∃ y, i = .orReg r y) ∨
    (∃ y, i = .andReg r y) ∨ (∃ y, i = .xorReg r y) ∨ (∃ y, i = .addReg r y) ∨ (∃ y, i = .sub r y) ∨
    (∃ y, i = .shr r y) ∨ (∃ y, i = .subn r y) ∨ (∃ y, i = .shl r y) ∨ (∃ nn, i = .rnd r nn) ∨
    i = .ldVxDt r ∨ i = .ldVxK r ∨ (∃ x, i = .ldRegs x ∧ r ≤ x)

/-! ## Skips -/

/-- R130 to R134: each of the four register skips adds 2 to the already advanced `pc` when its condition holds, and
changes nothing else. -/
def Obligations.RegisterSkipsMovePcByTwoOrNothing : Prop :=
  ∀ (i : Instr) (s : State) (c : Prop) [Decidable c],
    ((∃ x nn, i = .seImm x nn ∧ (c ↔ s.reg x = nn)) ∨ (∃ x nn, i = .sneImm x nn ∧ (c ↔ s.reg x ≠ nn)) ∨
      (∃ x y, i = .seReg x y ∧ (c ↔ s.reg x = s.reg y)) ∨ (∃ x y, i = .sneReg x y ∧ (c ↔ s.reg x ≠ s.reg y))) →
    ∃ t, exec i s = .next t ∧ t.pc.toNat = (s.pc.toNat + (if c then 2 else 0)) % 65536 ∧
      t = { s with pc := t.pc } ∧ SameMemory s t

/-! ## Jump, call, return -/

/-- R141: 1NNN is the words 0x1, `NNN`, and no other; it sets `pc` to `NNN`, whatever `NNN` is, and changes nothing
else. -/
def Obligations.JumpSetsPc : Prop :=
  ∀ (nnn : Addr12) (s : State),
    (∀ w : Word, decodeWord w = some (.jp nnn) ↔ w = 0x1#4 ++ nnn) ∧
    ∃ t, exec (.jp nnn) s = .next t ∧ t.pc.toNat = nnn.toNat ∧ t = { s with pc := t.pc } ∧ SameMemory s t

/-- R144 (decision D30 of the spec): BNNN sets `pc` to `NNN + V0`, with no masking and no wrap, and changes nothing
else. -/
def Obligations.OffsetJumpAddsV0 : Prop :=
  ∀ (nnn : Addr12) (s : State), ∃ t, exec (.jpV0 nnn) s = .next t ∧ t.pc.toNat = nnn.toNat + (s.reg 0).toNat ∧
    t = { s with pc := t.pc } ∧ SameMemory s t

/-- R142 (decisions D7 and D13 of the spec): with a free slot, 2NNN pushes the advanced `pc` and jumps; every other slot
stays; with 16 occupied slots it is the stack error and nothing else changes. -/
def Obligations.CallPushesTheReturnAddress : Prop :=
  ∀ (nnn : Addr12) (s : State),
    (s.sp.val < 16 → ∃ t, exec (.call nnn) s = .next t ∧ t.sp.val = s.sp.val + 1 ∧ t.pc.toNat = nnn.toNat ∧
      (∀ j : Fin 16, t.stack[j.val] = if j.val = s.sp.val then s.pc else s.stack[j.val]) ∧
      t = { s with stack := t.stack, sp := t.sp, pc := t.pc } ∧ SameMemory s t) ∧
    (s.sp.val = 16 → s.onError = .halt → exec (.call nnn) s = .fault (.stackFault .overflow)) ∧
    (s.sp.val = 16 → s.onError = .goOn →
      exec (.call nnn) s = .next { s with error := some (.stackFault .overflow) })

/-- R143 (decisions D7 and D13 of the spec): with an occupied slot, 00EE pops the newest return address into `pc` and
the slot keeps its value; with none it is the stack error and nothing else changes. -/
def Obligations.ReturnPopsTheReturnAddress : Prop :=
  ∀ s : State,
    (∀ j : Fin 16, s.sp.val = j.val + 1 → ∃ t, exec .ret s = .next t ∧ t.sp.val = j.val ∧ t.pc = s.stack[j.val] ∧
      t = { s with sp := t.sp, pc := t.pc } ∧ SameMemory s t) ∧
    (s.sp.val = 0 → s.onError = .halt → exec .ret s = .fault (.stackFault .underflow)) ∧
    (s.sp.val = 0 → s.onError = .goOn → exec .ret s = .next { s with error := some (.stackFault .underflow) })

/-- R145: a call at `a` whose target holds a return comes back in two steps to `a + 2`, with `SP` as before and nothing
changed but the stale slot, besides the step's outputs and the host's turns. That outputs are emptied and ticks made
around the instruction is the model's own step (log entries 2, 9 and 10). -/
def Obligations.CallThenReturnComesBack : Prop :=
  ∀ (s : State) (nnn : Addr12), s.pc.toNat ≤ 0xFFE → decodeWord s.fetchWord = some (.call nnn) → s.sp.val < 16 →
    nnn.toNat ≤ 0xFFE → decodeWord (s.byte nnn.toNat ++ s.byte (nnn.toNat + 1)) = some .ret →
    ∃ t u, step s = .next t ∧ step t = .next u ∧ u.pc = s.pc + 2#16 ∧ u.sp = s.sp ∧
      (∀ j : Fin 16, u.stack[j.val] = if j.val = s.sp.val then s.pc + 2#16 else s.stack[j.val]) ∧
      u = { s with
        pc := u.pc, stack := u.stack, commands := [], error := none, dt := u.dt, st := u.st
        schedule := u.schedule, turn := u.turn }

/-- R27 (decision D7 of the spec): no instruction but 2NNN and 00EE changes the stack or `SP`. -/
def Obligations.OnlyCallAndReturnTouchTheStack : Prop :=
  ∀ (i : Instr) (s t : State), exec i s = .next t → t.stack ≠ s.stack ∨ t.sp ≠ s.sp → (∃ nnn, i = .call nnn) ∨ i = .ret

/-! ## Random -/

/-- R151 (decision D21 of the spec): CXNN writes the step's draw masked with `NN` to `VX`, whatever the draw is, and
changes nothing else. -/
def Obligations.RandomMasksTheDraw : Prop :=
  ∀ (x : RegIx) (nn : Byte) (s : State), ∃ t, exec (.rnd x nn) s = .next t ∧
    (∀ r, r ≠ x → t.reg r = s.reg r) ∧
    (∀ k < 8, (t.reg x).getLsbD k = (nn.getLsbD k && s.hostTurn.rnd.getLsbD k)) ∧
    t = { s with v := t.v } ∧ SameMemory s t

/-- R152 (decision D21 of the spec): the possible results of CXNN over all draws are exactly the bit-subsets of `NN`,
and none exceeds `NN`. -/
def Obligations.RandomReachesExactlyTheSubsets : Prop :=
  ∀ (x : RegIx) (nn v : Byte) (s : State) (h : HostTurn) (rest : List HostTurn),
    ((∃ d : Byte, ∃ t, exec (.rnd x nn) { s with schedule := { h with rnd := d } :: rest } = .next t ∧ t.reg x = v) ↔
      v &&& nn = v) ∧
    (v &&& nn = v → v.toNat ≤ nn.toNat)

/-! ## Display -/

/-- R161: 00E0 is that word and no other; it clears every cell, emits `clear()` and `present()`, and changes nothing
else, VF included. -/
def Obligations.ClearScreenClearsEveryCell : Prop :=
  (∀ w : Word, decodeWord w = some .cls ↔ w = 0x00E0#16) ∧
  ∀ s : State, ∃ t, exec .cls s = .next t ∧ (∀ xy, t.pixel xy = false) ∧
    t.commands = s.commands ++ [.clear, .present] ∧
    t = { s with disp := t.disp, commands := t.commands } ∧ SameMemory s t

/-- R156 to R158 (decision D22 of the spec for the bit order): where the sprite lies in memory, DXYN toggles each cell
once for every set sprite bit that falls on it, wrapping at both edges, on a display of any size; it changes only
VF, the display and the commands. -/
def Obligations.DrawTogglesTheSpriteCells : Prop :=
  ∀ (x y : RegIx) (n : Fin 16) (s : State), (n.val = 0 ∨ s.index.toNat + n.val - 1 ≤ 0xFFF) →
    ∃ t, exec (.drw x y n) s = .next t ∧
      (∀ col < s.params.displayW, ∀ row < s.params.displayH, t.pixel (col, row) =
        (s.pixel (col, row) ^^ decide (((spriteOffsets n.val).countP
          (fun rc => s.spriteBit rc && s.spriteCell x y rc == (col, row))) % 2 = 1))) ∧
      (∀ r, r ≠ 15 → t.reg r = s.reg r) ∧
      t = { s with v := t.v, disp := t.disp, commands := t.commands } ∧ SameMemory s t

/-- R156, R159 and R160 (decisions D22 to D24 of the spec) on a display of at least 8 by 15: VF is 1 exactly when a set
sprite bit falls on a cell that was 1, and the commands are one for each set sprite bit in drawing order, then
`present()`. -/
def Obligations.DrawFlagsCollisionsAndEmitsCommands : Prop :=
  ∀ (x y : RegIx) (n : Fin 16) (s : State), (n.val = 0 ∨ s.index.toNat + n.val - 1 ≤ 0xFFF) →
    8 ≤ s.params.displayW → 15 ≤ s.params.displayH →
    ∃ t, exec (.drw x y n) s = .next t ∧
      t.reg 15 = (if (spriteOffsets n.val).any (fun rc => s.spriteBit rc && s.pixel (s.spriteCell x y rc))
        then 0x01#8 else 0x00#8) ∧
      t.commands = s.commands ++ ((spriteOffsets n.val).filter s.spriteBit).map (fun rc =>
        if s.pixel (s.spriteCell x y rc)
          then .clearPixel (s.spriteCell x y rc).1 (s.spriteCell x y rc).2
          else .setPixel (s.spriteCell x y rc).1 (s.spriteCell x y rc).2) ++ [.present]

/-- R163, derived in the spec: a sprite drawn, and drawn again with the same `I`, `N`, `VX`, `VY` and sprite bytes
(re-established where the first draw changed a coordinate in VF), leaves every cell as it was, on a display of any size;
on one of at least 8 by 15 the second draw ends with VF at 1 exactly when some cell the sprite sets bits on held 0 before
the first. -/
def Obligations.DrawTwiceRestoresTheDisplay : Prop :=
  ∀ (x y : RegIx) (n : Fin 16) (s : State), (n.val = 0 ∨ s.index.toNat + n.val - 1 ≤ 0xFFF) →
    ∃ t, exec (.drw x y n) s = .next t ∧
      ∀ u : State, u.params = t.params → u.disp = t.disp → u.index = s.index →
        (∀ j < n.val, u.byte (s.index.toNat + j) = s.byte (s.index.toNat + j)) →
        u.reg x = s.reg x → u.reg y = s.reg y →
        ∃ w, exec (.drw x y n) u = .next w ∧
          (∀ col < s.params.displayW, ∀ row < s.params.displayH, w.pixel (col, row) = s.pixel (col, row)) ∧
          (8 ≤ s.params.displayW → 15 ≤ s.params.displayH → w.reg 15 =
            if (spriteOffsets n.val).any (fun rc => s.spriteBit rc && !s.pixel (s.spriteCell x y rc))
              then 0x01#8 else 0x00#8)

/-- R155: no instruction but 00E0 and DXYN changes the display or emits a command. -/
def Obligations.OnlyDisplayInstructionsTouchTheDisplay : Prop :=
  ∀ (i : Instr) (s t : State), exec i s = .next t → t.disp ≠ s.disp ∨ t.commands ≠ s.commands →
    i = .cls ∨ ∃ x y n, i = .drw x y n

/-! ## Keys -/

/-- R171 to R173 (decision D19 of the spec for the mask): EX9E skips when the key of the low nibble of `VX` is down in
this step's `keys`, EXA1 when it is up; nothing else changes. -/
def Obligations.KeySkipsReadTheStepsKeys : Prop :=
  ∀ (x : RegIx) (s : State) (down : Bool), down = s.hostTurn.keys.getLsbD ((s.reg x).toNat % 16) →
    (∃ t, exec (.skp x) s = .next t ∧ t.pc.toNat = (s.pc.toNat + if down then 2 else 0) % 65536 ∧
      t = { s with pc := t.pc } ∧ SameMemory s t) ∧
    (∃ t, exec (.sknp x) s = .next t ∧ t.pc.toNat = (s.pc.toNat + if down then 0 else 2) % 65536 ∧
      t = { s with pc := t.pc } ∧ SameMemory s t)

/-- R174 (decision D20 of the spec): the three cases of FX0A. The entry sets the flag and stays without looking at the
event; a poll that is given a key writes its number, ends the wait and goes on; a poll without one changes nothing
but stays. -/
def Obligations.KeyWaitEntersPollsAndDelivers : Prop :=
  ∀ (x : RegIx) (s : State),
    (s.awaiting = false → ∃ t, exec (.ldVxK x) s = .next t ∧ t.awaiting = true ∧ t.pc + 2#16 = s.pc ∧
      t = { s with awaiting := true, pc := t.pc } ∧ SameMemory s t) ∧
    (∀ k, s.awaiting = true → s.hostTurn.keyEvent = some k → ∃ t, exec (.ldVxK x) s = .next t ∧ t.awaiting = false ∧
      (∀ r, (t.reg r).toNat = if r = x then k.val else (s.reg r).toNat) ∧
      t = { s with awaiting := false, v := t.v } ∧ SameMemory s t) ∧
    (s.awaiting = true → s.hostTurn.keyEvent = none → ∃ t, exec (.ldVxK x) s = .next t ∧ t.pc + 2#16 = s.pc ∧
      t = { s with pc := t.pc } ∧ SameMemory s t)

/-- R175 (a) and (b): a step at an FX0A that is awaiting and is given no key changes nothing but what the host does
around it: the outputs are taken and the timers keep counting. That outputs are emptied and ticks made around the
instruction is the model's own step (log entries 2, 9 and 10). -/
def Obligations.WaitingWithoutAKeyChangesNothing : Prop :=
  ∀ s : State, s.AwaitsAtKeyWait → s.awaiting = true → s.hostTurn.keyEvent = none →
    step s = .next (endTurn { s with commands := [], error := none })

/-! ## Timers -/

/-- R181 to R183: FX07 copies `DT` to `VX`, FX15 and FX18 copy `VX` to `DT` and `ST`, with no other effect; the sound
output follows `ST` at once (R234). -/
def Obligations.TimerInstructionsCopy : Prop :=
  ∀ (x : RegIx) (s : State),
    (∃ t, exec (.ldVxDt x) s = .next t ∧ (∀ r, t.reg r = if r = x then s.dt else s.reg r) ∧ t = { s with v := t.v } ∧
      SameMemory s t) ∧
    (∃ t, exec (.ldDtVx x) s = .next t ∧ t.dt = s.reg x ∧ t = { s with dt := t.dt } ∧ SameMemory s t) ∧
    (∃ t, exec (.ldStVx x) s = .next t ∧ t.st = s.reg x ∧ (soundActive t = true ↔ (s.reg x).toNat ≠ 0) ∧
      t = { s with st := t.st } ∧ SameMemory s t)

/-- R231: a tick takes 1 from each timer that is not 0, leaves a timer at 0 at 0, and changes nothing else. After it the
sound output is on exactly when `ST` was above 1 (R234). -/
def Obligations.TickCountsEachTimerDown : Prop :=
  ∀ s : State, (tickTimers s).dt.toNat = s.dt.toNat - 1 ∧ (tickTimers s).st.toNat = s.st.toNat - 1 ∧
    (soundActive (tickTimers s) = true ↔ s.st.toNat > 1) ∧
    tickTimers s = { s with dt := (tickTimers s).dt, st := (tickTimers s).st }

/-- R231 and R232 (decision D26 of the spec): the host's part between two steps, `endTurn`, is its ticks, one at a time, in
any number; and in a run without end ticks keep coming, which is R232's fairness. That a step itself makes the ticks that
fall after it (log entry 10), and then goes on to the next turn of the schedule (`schedule.tail`, `turn + 1`, log entry
2), is the model's choice and in no rule. -/
def Obligations.HostTurnIsItsTicksOneByOne : Prop :=
  (∀ s : State, endTurn s =
    { tickTimers^[s.hostTurn.ticks] s with schedule := s.schedule.tail, turn := s.turn + 1 }) ∧
  ∀ r : Nat → State, IsRun r → TicksKeepComing r

/-- R26, R29, R180 and R204 (decision D16 of the spec): no instruction but ANNN, FX1E and FX29 changes `I`, none but
FX15 changes `DT`, and none but FX18 changes `ST`. -/
def Obligations.IndexAndTimersChangeOnlyByTheirWriters : Prop :=
  ∀ (i : Instr) (s t : State), exec i s = .next t →
    (t.index ≠ s.index → (∃ nnn, i = .ldI nnn) ∨ (∃ x, i = .addI x) ∨ (∃ x, i = .ldF x)) ∧
    (t.dt ≠ s.dt → ∃ x, i = .ldDtVx x) ∧ (t.st ≠ s.st → ∃ x, i = .ldStVx x)

/-! ## Index register and memory -/

/-- R191: ANNN is the words 0xA, `NNN`, and no other; it sets `I` to `NNN`, bits 15:12 to 0, and changes nothing else. -/
def Obligations.LoadIndexSetsI : Prop :=
  ∀ (nnn : Addr12) (s : State),
    (∀ w : Word, decodeWord w = some (.ldI nnn) ↔ w = 0xA#4 ++ nnn) ∧
    ∃ t, exec (.ldI nnn) s = .next t ∧ t.index.toNat = nnn.toNat ∧ t = { s with index := t.index } ∧ SameMemory s t

/-- R192 (decision D15 of the spec): FX1E adds `VX` to `I` on 16 bits and writes to VF whether the unwrapped sum exceeds
0xFFF; the old VF is the addend where `X` is 15. -/
def Obligations.AddToIndexFlagsTheTwelveBitOverflow : Prop :=
  ∀ (x : RegIx) (s : State), ∃ t, exec (.addI x) s = .next t ∧
    t.index.toNat = (s.index.toNat + (s.reg x).toNat) % 65536 ∧
    (∀ r, (t.reg r).toNat =
      if r = 15 then (if s.index.toNat + (s.reg x).toNat > 0xFFF then 1 else 0) else (s.reg r).toNat) ∧
    t = { s with index := t.index, v := t.v } ∧ SameMemory s t

/-- R194: FX29 sets `I` to 0x050 plus 5 times the low nibble of `VX`, inside the font table, and changes nothing else. -/
def Obligations.FontAddressIsBasePlusFiveTimesTheDigit : Prop :=
  ∀ (x : RegIx) (s : State), ∃ t, exec (.ldF x) s = .next t ∧ t.index.toNat = 0x50 + 5 * ((s.reg x).toNat % 16) ∧
    t.index.toNat + 5 ≤ 0xA0 ∧ t = { s with index := t.index } ∧ SameMemory s t

/-- R196 (decisions D10 and D16 of the spec): where `I`, `I+1` and `I+2` are in memory, FX33 stores the three decimal
digits of `VX` there, most significant first; they make up the value; nothing else changes. -/
def Obligations.BcdStoresTheThreeDigits : Prop :=
  ∀ (x : RegIx) (s : State), s.index.toNat + 2 ≤ 0xFFF → ∃ t, exec (.ldB x) s = .next t ∧
    (t.byte s.index.toNat).toNat = (s.reg x).toNat / 100 ∧
    (t.byte (s.index.toNat + 1)).toNat = (s.reg x).toNat / 10 % 10 ∧
    (t.byte (s.index.toNat + 2)).toNat = (s.reg x).toNat % 10 ∧
    100 * (t.byte s.index.toNat).toNat + 10 * (t.byte (s.index.toNat + 1)).toNat +
      (t.byte (s.index.toNat + 2)).toNat = (s.reg x).toNat ∧
    SameMemoryOutside s.index.toNat 3 s t ∧ t = { s with mem := t.mem }

/-- R198 and R204 (decisions D10 and D16 of the spec): where `I` to `I + X` are in memory, FX55 stores `V0` to `VX`
there; no other byte and nothing else changes, `I` included. -/
def Obligations.StoreRegistersWritesTheRange : Prop :=
  ∀ (x : RegIx) (s : State), s.index.toNat + x.val ≤ 0xFFF → ∃ t, exec (.stRegs x) s = .next t ∧
    (∀ j : RegIx, j ≤ x → t.byte (s.index.toNat + j.val) = s.reg j) ∧
    SameMemoryOutside s.index.toNat (x.val + 1) s t ∧ t = { s with mem := t.mem }

/-- R200 and R204 (decisions D10 and D16 of the spec): where `I` to `I + X` are in memory, FX65 loads `V0` to `VX` from
there; the registers above `VX` and everything else stay, `I` and memory included. -/
def Obligations.LoadRegistersReadsTheRange : Prop :=
  ∀ (x : RegIx) (s : State), s.index.toNat + x.val ≤ 0xFFF → ∃ t, exec (.ldRegs x) s = .next t ∧
    (∀ j : RegIx, t.reg j = if j ≤ x then s.byte (s.index.toNat + j.val) else s.reg j) ∧
    t = { s with v := t.v } ∧ SameMemory s t

/-- R202 (with decision D16 of the spec: `I` stays): registers stored by FX55 come back by FX65 with the same `X` and
`I`, whatever happened to the registers and to the rest of the machine in between, as long as the stored bytes
stand. -/
def Obligations.StoreThenLoadGivesTheRegistersBack : Prop :=
  ∀ (x : RegIx) (s t u : State), s.index.toNat + x.val ≤ 0xFFF → exec (.stRegs x) s = .next t → u.index = t.index →
    (∀ j ≤ x.val, u.byte (s.index.toNat + j) = t.byte (s.index.toNat + j)) →
    ∃ w, exec (.ldRegs x) u = .next w ∧ ∀ j : RegIx, j ≤ x → w.reg j = s.reg j

/-! ## Reset -/

/-- R38, the values the source zeroes: registers, timers, the stack count and the stack slots. -/
def Obligations.ResetZeroesRegistersTimersAndStack : Prop :=
  (∀ r, State.reset.reg r = 0x00#8) ∧ State.reset.dt = 0x00#8 ∧ State.reset.st = 0x00#8 ∧ State.reset.sp = 0 ∧
  ∀ j : Fin 16, State.reset.stack[j.val] = 0x0000#16

/-- R250 and R254 (decisions D4, D5 and D6 of the spec): `reset(image)` answers for every image that fits, with the
image from 0x200 on, the font table at 0x050, `MEM_INIT` elsewhere, `pc` at the entry point, and the values of reset
in all else; for no other image does it answer. -/
def Obligations.ResetPlacesFontAndImage : Prop :=
  ∀ (p : Params) (e : OnError) (sch : List HostTurn) (image : List Byte), p.font.length = 80 →
    (image.length > 3584 → resetWith p e sch image = none) ∧
    (image.length ≤ 3584 → ∃ s, resetWith p e sch image = some s ∧
      (∀ j (h : j < image.length), s.byte (0x200 + j) = image[j]) ∧
      (∀ j (h : j < p.font.length), s.byte (0x50 + j) = p.font[j]) ∧
      (∀ a, ¬(0x50 ≤ a ∧ a < 0xA0) → ¬(0x200 ≤ a ∧ a < 0x200 + image.length) → s.byte a = p.memInit.getD a 0x00#8) ∧
      s.pc = 0x0200#16 ∧ s = { State.reset with params := p, onError := e, schedule := sch, mem := s.mem })

/-! ## Invariants and whole-machine rules -/

/-- Reset (R38, R250) meets both invariants below, with every parameter set that is well formed and every image that fits:
the key-wait invariant of R39, and the canonical form of memory and display (strictly rising lists with nothing
redundant), which is the model's own representation (log entries 5 and 6). -/
def Obligations.ResetMeetsTheInvariants : Prop :=
  State.reset.Canonical ∧ State.reset.AwaitsAtKeyWait ∧
  ∀ (p : Params) (e : OnError) (sch : List HostTurn) (image : List Byte) (s : State), p.WellFormed →
    resetWith p e sch image = some s → s.Canonical ∧ s.AwaitsAtKeyWait

/-- Every step keeps the canonical forms: memory and display lists strictly rising, in range, and with nothing redundant
(R39 and the model's own representation, log entries 5 and 6). -/
def Obligations.StepKeepsCanonical : Prop :=
  ∀ s t : State, s.Canonical → step s = .next t → t.Canonical

/-- R39: every step, and every tick, keeps "while the machine awaits a key, the word at `pc` is an FX0A". -/
def Obligations.AwaitingStaysAtTheKeyWait : Prop :=
  (∀ s, s.AwaitsAtKeyWait → (tickTimers s).AwaitsAtKeyWait) ∧
  ∀ s t : State, s.AwaitsAtKeyWait → step s = .next t → t.AwaitsAtKeyWait

/-- R41 and R12: the parameters and the host's policy do not change during a run. That they are fields of the state is the
model's choice (log entry 24), and so is the other clause, that each step takes exactly one turn of the host
(`schedule.tail`, `turn + 1`; log entry 2). -/
def Obligations.StepKeepsParametersAndTakesOneTurn : Prop :=
  ∀ s t : State, step s = .next t →
    t.params = s.params ∧ t.onError = s.onError ∧ t.schedule = s.schedule.tail ∧ t.turn = s.turn + 1

/-- R8: a step reads `keys` only in EX9E and EXA1, `key_event` only in FX0A and `rnd` only in CXNN. With another
schedule that agrees on the input the instruction reads, the instruction does the same. -/
def Obligations.InputsReachOnlyTheirInstructions : Prop :=
  ∀ (i : Instr) (s : State) (sch : List HostTurn) (n : Nat),
    ((∃ x, i = .skp x ∨ i = .sknp x) → ({ s with schedule := sch, turn := n } : State).hostTurn.keys = s.hostTurn.keys) →
    ((∃ x, i = .ldVxK x) → ({ s with schedule := sch, turn := n } : State).hostTurn.keyEvent = s.hostTurn.keyEvent) →
    ((∃ x nn, i = .rnd x nn) → ({ s with schedule := sch, turn := n } : State).hostTurn.rnd = s.hostTurn.rnd) →
    exec i { s with schedule := sch, turn := n } = onNext (fun t => { t with schedule := sch, turn := n }) (exec i s)

/-- R264, a convention of the spec (decision D28): a finished program stays finished, safely and for ever, and a step
there changes nothing but the timers, the step's outputs and the host's turn. That outputs are emptied and ticks
made around the instruction is the model's own step (log entries 2, 9 and 10). -/
def Obligations.FinishedProgramsStayFinished : Prop :=
  ∀ s : State, s.Finished →
    step s = .next (endTurn { s with commands := [], error := none }) ∧
    (endTurn { s with commands := [], error := none }).Finished ∧ ∀ k, s.SafeFor k
end

