-- ==== Sys2Proof/Laws/Decode.lean ====
section
/-! SUPPORT. The fields of an encoded word, a word as its fields, a masked word as its fields, and the round trip of a word
through its two bytes. -/

namespace Sys2Proof

/-! ## Words and fields as numbers (R81, R82) -/

theorem toNat_encodeA (f : Nibble) (nnn : Addr12) : (encodeA f nnn).toNat = f.toNat * 4096 + nnn.toNat := by
  simp only [encodeA, BitVec.toNat_append]
  have := nnn.isLt
  rw [← Nat.shiftLeft_add_eq_or_of_lt this, Nat.shiftLeft_eq]

theorem toNat_encodeX (f : Nibble) (x : RegIx) (low : Byte) : (encodeX f x low).toNat = f.toNat * 4096 + x.val * 256 + low.toNat := by
  simp only [encodeX, BitVec.toNat_append]
  have := low.isLt; have h2 := x.isLt
  rw [← Nat.shiftLeft_add_eq_or_of_lt this, ← Nat.shiftLeft_add_eq_or_of_lt (BitVec.ofFin (w := 4) x).isLt]
  simp only [Nat.shiftLeft_eq, BitVec.toNat_ofFin]; omega

theorem toNat_encodeXY (f : Nibble) (x y : RegIx) (low : Nibble) : (encodeXY f x y low).toNat = f.toNat * 4096 + x.val * 256 + y.val * 16 + low.toNat := by
  simp only [encodeXY, BitVec.toNat_append]
  rw [← Nat.shiftLeft_add_eq_or_of_lt low.isLt, ← Nat.shiftLeft_add_eq_or_of_lt (BitVec.ofFin (w := 4) y).isLt, ← Nat.shiftLeft_add_eq_or_of_lt (BitVec.ofFin (w := 4) x).isLt]
  simp only [Nat.shiftLeft_eq, BitVec.toNat_ofFin]; omega

theorem toNat_fieldF (w : Word) : (fieldF w).toNat = w.toNat / 4096 := by
  have := w.isLt
  simp only [fieldF, BitVec.extractLsb'_toNat, Nat.shiftRight_eq_div_pow]; omega

theorem val_fieldX (w : Word) : (fieldX w).val = w.toNat / 256 % 16 := by
  show (w.extractLsb' 8 4).toNat = _
  simp only [BitVec.extractLsb'_toNat, Nat.shiftRight_eq_div_pow]

theorem val_fieldY (w : Word) : (fieldY w).val = w.toNat / 16 % 16 := by
  show (w.extractLsb' 4 4).toNat = _
  simp only [BitVec.extractLsb'_toNat, Nat.shiftRight_eq_div_pow]

theorem val_fieldRows (w : Word) : (fieldRows w).val = w.toNat % 16 := by
  show (w.extractLsb' 0 4).toNat = _
  simp only [BitVec.extractLsb'_toNat, Nat.shiftRight_eq_div_pow, Nat.pow_zero, Nat.div_one]

theorem toNat_fieldN (w : Word) : (fieldN w).toNat = w.toNat % 16 := by
  simp only [fieldN, BitVec.extractLsb'_toNat, Nat.shiftRight_eq_div_pow, Nat.pow_zero, Nat.div_one]

theorem toNat_fieldNN (w : Word) : (fieldNN w).toNat = w.toNat % 256 := by
  simp only [fieldNN, BitVec.extractLsb'_toNat, Nat.shiftRight_eq_div_pow, Nat.pow_zero, Nat.div_one]

theorem toNat_fieldNNN (w : Word) : (fieldNNN w).toNat = w.toNat % 4096 := by
  simp only [fieldNNN, BitVec.extractLsb'_toNat, Nat.shiftRight_eq_div_pow, Nat.pow_zero, Nat.div_one]

/-! ## The fields of an encoded word -/

section

variable (f : Nibble) (x y : RegIx) (low : Byte) (n : Nibble) (nnn : Addr12)

@[simp] theorem fieldF_encodeA : fieldF (encodeA f nnn) = f := by
  apply BitVec.eq_of_toNat_eq; have := nnn.isLt; rw [toNat_fieldF, toNat_encodeA]; omega

@[simp] theorem fieldNNN_encodeA : fieldNNN (encodeA f nnn) = nnn := by
  apply BitVec.eq_of_toNat_eq; have := nnn.isLt; rw [toNat_fieldNNN, toNat_encodeA]; omega

@[simp] theorem fieldF_encodeX : fieldF (encodeX f x low) = f := by
  apply BitVec.eq_of_toNat_eq; have := low.isLt; rw [toNat_fieldF, toNat_encodeX]; omega

@[simp] theorem fieldX_encodeX : fieldX (encodeX f x low) = x := by
  apply Fin.ext; have := low.isLt; rw [val_fieldX, toNat_encodeX]; omega

@[simp] theorem fieldNN_encodeX : fieldNN (encodeX f x low) = low := by
  apply BitVec.eq_of_toNat_eq; have := low.isLt; rw [toNat_fieldNN, toNat_encodeX]; omega

@[simp] theorem fieldF_encodeXY : fieldF (encodeXY f x y n) = f := by
  apply BitVec.eq_of_toNat_eq; have := n.isLt; rw [toNat_fieldF, toNat_encodeXY]; omega

@[simp] theorem fieldX_encodeXY : fieldX (encodeXY f x y n) = x := by
  apply Fin.ext; have := n.isLt; rw [val_fieldX, toNat_encodeXY]; omega

@[simp] theorem fieldY_encodeXY : fieldY (encodeXY f x y n) = y := by
  apply Fin.ext; have := n.isLt; rw [val_fieldY, toNat_encodeXY]; omega

@[simp] theorem fieldN_encodeXY : fieldN (encodeXY f x y n) = n := by
  apply BitVec.eq_of_toNat_eq; have := n.isLt; rw [toNat_fieldN, toNat_encodeXY]; omega

@[simp] theorem fieldRows_encodeXY (k : Fin 16) : fieldRows (encodeXY f x y (BitVec.ofFin k)) = k := by
  apply Fin.ext; have := k.isLt; rw [val_fieldRows, toNat_encodeXY]; simp only [BitVec.toNat_ofFin]; omega

end

/-! ## A word as its fields -/

theorem encodeA_fields (w : Word) : encodeA (fieldF w) (fieldNNN w) = w := by
  apply BitVec.eq_of_toNat_eq; rw [toNat_encodeA, toNat_fieldF, toNat_fieldNNN]; omega

theorem encodeX_fields (w : Word) : encodeX (fieldF w) (fieldX w) (fieldNN w) = w := by
  apply BitVec.eq_of_toNat_eq; rw [toNat_encodeX, toNat_fieldF, val_fieldX, toNat_fieldNN]; omega

theorem encodeXY_fields (w : Word) : encodeXY (fieldF w) (fieldX w) (fieldY w) (fieldN w) = w := by
  apply BitVec.eq_of_toNat_eq; rw [toNat_encodeXY, toNat_fieldF, val_fieldX, val_fieldY, toNat_fieldN]; omega

theorem ofFin_fieldRows (w : Word) : BitVec.ofFin (fieldRows w) = fieldN w := rfl

theorem wordOfBytes_bytesOfWord (w : Word) : wordOfBytes (w.extractLsb' 8 8) (w.extractLsb' 0 8) = w := by
  apply BitVec.eq_of_toNat_eq
  simp only [wordOfBytes, BitVec.toNat_append]
  rw [← Nat.shiftLeft_add_eq_or_of_lt (BitVec.isLt _)]
  have := w.isLt
  simp only [BitVec.extractLsb'_toNat, Nat.shiftRight_eq_div_pow, Nat.shiftLeft_eq]; omega

theorem fieldF_of_toNat {w : Word} {k : Nat} (h : (fieldF w).toNat = k) : fieldF w = BitVec.ofNat 4 k := by
  subst h; simp

theorem fieldN_of_toNat {w : Word} {k : Nat} (h : (fieldN w).toNat = k) : fieldN w = BitVec.ofNat 4 k := by
  subst h; simp

theorem fieldNN_of_toNat {w : Word} {k : Nat} (h : (fieldNN w).toNat = k) : fieldNN w = BitVec.ofNat 8 k := by
  subst h; simp

/-! ## A masked word as its fields (R87) -/

theorem mask_F000 (w : Word) : w &&& 0xF000#16 = encodeA (fieldF w) 0#12 := by
  apply BitVec.eq_of_getLsbD_eq
  intro i hi
  simp only [encodeA, fieldF, BitVec.getLsbD_and, BitVec.getLsbD_append]
  interval_cases i <;> simp

theorem mask_F00F (w : Word) : w &&& 0xF00F#16 = encodeXY (fieldF w) 0 0 (fieldN w) := by
  apply BitVec.eq_of_getLsbD_eq
  intro i hi
  simp only [encodeXY, fieldF, fieldN, BitVec.getLsbD_and, BitVec.getLsbD_append]
  interval_cases i <;> simp

theorem mask_F0FF (w : Word) : w &&& 0xF0FF#16 = encodeX (fieldF w) 0 (fieldNN w) := by
  apply BitVec.eq_of_getLsbD_eq
  intro i hi
  simp only [encodeX, fieldF, fieldNN, BitVec.getLsbD_and, BitVec.getLsbD_append]
  interval_cases i <;> simp

theorem mask_FFFF (w : Word) : w &&& 0xFFFF#16 = w := by
  have : (0xFFFF#16) = BitVec.allOnes 16 := rfl
  rw [this, BitVec.and_allOnes]

/-- A row that fixes the family nibble covers the words of that family. -/
theorem covers_F000 (id : String) {v : Word} (w : Word) (hv : v &&& 0xF000#16 = v) :
    (OpcodeRow.mk id v 0xF000#16).covers w = true ↔ fieldF w = fieldF v := by
  rw [mask_F000] at hv
  simp only [OpcodeRow.covers, beq_iff_eq, mask_F000]
  exact ⟨fun h => by simpa using congrArg fieldF h, fun h => by rw [h, hv]⟩

/-- A row that fixes the family and the low nibble. -/
theorem covers_F00F (id : String) {v : Word} (w : Word) (hv : v &&& 0xF00F#16 = v) :
    (OpcodeRow.mk id v 0xF00F#16).covers w = true ↔ fieldF w = fieldF v ∧ fieldN w = fieldN v := by
  rw [mask_F00F] at hv
  simp only [OpcodeRow.covers, beq_iff_eq, mask_F00F]
  exact ⟨fun h => ⟨by simpa using congrArg fieldF h, by simpa using congrArg fieldN h⟩, fun h => by rw [h.1, h.2, hv]⟩

/-- A row that fixes the family and the low byte. -/
theorem covers_F0FF (id : String) {v : Word} (w : Word) (hv : v &&& 0xF0FF#16 = v) :
    (OpcodeRow.mk id v 0xF0FF#16).covers w = true ↔ fieldF w = fieldF v ∧ fieldNN w = fieldNN v := by
  rw [mask_F0FF] at hv
  simp only [OpcodeRow.covers, beq_iff_eq, mask_F0FF]
  exact ⟨fun h => ⟨by simpa using congrArg fieldF h, by simpa using congrArg fieldNN h⟩, fun h => by rw [h.1, h.2, hv]⟩

/-- A row that fixes the whole word. -/
theorem covers_FFFF (id : String) (v w : Word) : (OpcodeRow.mk id v 0xFFFF#16).covers w = true ↔ w = v := by
  simp only [OpcodeRow.covers, beq_iff_eq, mask_FFFF]

end Sys2Proof
end

