-- ==== Sys2Proof/Laws/Display.lean ====
section
/-! SUPPORT. The display as data and the drawing of a sprite: what one toggled cell changes, what a whole drawing does to
a cell, to the collision flag and to the commands, and that all of it keeps the canonical form. -/

namespace Sys2Proof.Machine

/-! ## One cell -/

theorem mem_on {k j : Nat} {d : List Nat} : j ∈ Display.on k d ↔ j = k ∨ j ∈ d := by
  induction d with
  | nil => simp [Display.on]
  | cons i d ih =>
    simp only [Display.on]
    split
    · simp
    · simp only [List.mem_cons, ih]; tauto

theorem mem_off {k j : Nat} {d : List Nat} : j ∈ Display.off k d ↔ j ∈ d ∧ j ≠ k := by
  simp [Display.off]

theorem pairwise_on {k : Nat} {d : List Nat} (h : d.Pairwise (fun i j => i < j)) (hk : k ∉ d) :
    (Display.on k d).Pairwise (fun i j => i < j) := by
  induction d with
  | nil => simp [Display.on]
  | cons i d ih =>
    rw [List.pairwise_cons] at h
    simp only [Display.on]
    split
    · rename_i hi
      refine List.pairwise_cons.2 ⟨fun j hj => ?_, List.pairwise_cons.2 h⟩
      rcases List.mem_cons.1 hj with rfl | hj
      · exact hi
      · exact Nat.lt_trans hi (h.1 j hj)
    · rename_i hi
      have hne : k ≠ i := fun e => hk (by simp [e])
      refine List.pairwise_cons.2 ⟨fun j hj => ?_, ih h.2 (fun hj => hk (by simp [hj]))⟩
      rcases mem_on.1 hj with rfl | hj
      · omega
      · exact h.1 j hj

theorem wf_display_nil (p : Params) : Display.wf p [] := by simp [Display.wf]

theorem wf_off {p : Params} {d : List Nat} (k : Nat) (h : Display.wf p d) : Display.wf p (Display.off k d) :=
  ⟨h.1.filter _, fun j hj => h.2 j (mem_off.1 hj).1⟩

theorem wf_on {p : Params} {d : List Nat} {k : Nat} (h : Display.wf p d) (hk : k ∉ d)
    (hb : k < p.displayW * p.displayH) : Display.wf p (Display.on k d) :=
  ⟨pairwise_on h.1 hk, fun j hj => by
    rcases mem_on.1 hj with rfl | hj
    · exact hb
    · exact h.2 j hj⟩

/-- A coordinate inside the grid has a cell number inside the grid. -/
theorem cell_lt {p : Params} {x y : Nat} (hx : x < p.displayW) (hy : y < p.displayH) :
    Display.cell p x y < p.displayW * p.displayH := by
  unfold Display.cell
  calc y * p.displayW + x < y * p.displayW + p.displayW := by omega
    _ = (y + 1) * p.displayW := by ring
    _ ≤ p.displayH * p.displayW := Nat.mul_le_mul_right _ hy
    _ = p.displayW * p.displayH := Nat.mul_comm _ _

/-- Cell numbers tell the cells of the grid apart. -/
theorem cell_inj {p : Params} {x y u v : Nat} (hx : x < p.displayW) (hu : u < p.displayW) :
    Display.cell p x y = Display.cell p u v ↔ x = u ∧ y = v := by
  refine ⟨fun h => ?_, fun h => by rw [h.1, h.2]⟩
  unfold Display.cell at h
  have hW : 0 < p.displayW := by omega
  have h1 := congrArg (· / p.displayW) h
  have h2 := congrArg (· % p.displayW) h
  simp only [Nat.mul_comm _ p.displayW, Nat.mul_add_div hW, Nat.div_eq_of_lt hx, Nat.div_eq_of_lt hu,
    Nat.mul_add_mod, Nat.mod_eq_of_lt hx, Nat.mod_eq_of_lt hu, Nat.add_zero] at h1 h2
  exact ⟨h2, h1⟩

/-- Equal canonical displays are equal data. -/
theorem display_ext {p : Params} {d e : List Nat} (hd : Display.wf p d) (he : Display.wf p e)
    (h : ∀ k, k ∈ d ↔ k ∈ e) : d = e :=
  List.Perm.eq_of_pairwise (fun _ _ _ _ hab hba => absurd hab (Nat.lt_asymm hba)) hd.1 he.1
    ((List.perm_ext_iff_of_nodup (hd.1.imp Nat.ne_of_lt) (he.1.imp Nat.ne_of_lt)).2 h)

/-! ## Toggling -/

/-- A plot toggles its own cell and no other. -/
theorem plot_contains (p : Params) (c : Canvas) (xy : Nat × Nat) (k : Nat) :
    (c.plot p xy).disp.contains k = (c.disp.contains k ^^ (Display.cell p xy.1 xy.2 == k)) := by
  unfold Canvas.plot
  by_cases hk : Display.cell p xy.1 xy.2 = k
  · subst hk
    split <;> rename_i h
    · simp only [List.contains_iff_mem] at h
      simp [mem_off, h]
    · simp only [List.contains_iff_mem] at h
      simp [mem_on, h]
  · have hk' : ¬k = Display.cell p xy.1 xy.2 := fun e => hk e.symm
    have hk0 : (Display.cell p xy.1 xy.2 == k) = false := by simpa using hk
    split <;> simp [mem_off, mem_on, hk', hk0]

/-- Another cell stays. -/
theorem plot_contains_of_ne {p : Params} (c : Canvas) {xy : Nat × Nat} {k : Nat} (h : Display.cell p xy.1 xy.2 ≠ k) :
    (c.plot p xy).disp.contains k = c.disp.contains k := by
  rw [plot_contains, beq_eq_false_iff_ne.2 h, Bool.xor_false]

/-- A drawing toggles a cell once for every plot on it. -/
theorem foldl_plot_contains (p : Params) (cells : List (Nat × Nat)) (c : Canvas) (k : Nat) :
    (cells.foldl (Canvas.plot p) c).disp.contains k =
      (c.disp.contains k ^^ decide ((cells.countP (fun xy => Display.cell p xy.1 xy.2 == k)) % 2 = 1)) := by
  induction cells generalizing c with
  | nil => simp
  | cons xy cells ih =>
    rw [List.foldl_cons, ih, plot_contains, List.countP_cons]
    by_cases hk : Display.cell p xy.1 xy.2 = k
    · simp only [hk, beq_self_eq_true, if_true]
      rcases Nat.mod_two_eq_zero_or_one (cells.countP (fun xy => Display.cell p xy.1 xy.2 == k)) with h | h
      · have : (cells.countP (fun xy => Display.cell p xy.1 xy.2 == k) + 1) % 2 = 1 := by omega
        simp [h, this]
      · have : (cells.countP (fun xy => Display.cell p xy.1 xy.2 == k) + 1) % 2 = 0 := by omega
        simp [h, this]
    · simp [beq_eq_false_iff_ne.2 hk]

/-- A plot inside the grid keeps the canonical form. -/
theorem wf_plot {p : Params} {c : Canvas} {xy : Nat × Nat} (h : Display.wf p c.disp) (hx : xy.1 < p.displayW)
    (hy : xy.2 < p.displayH) : Display.wf p (c.plot p xy).disp := by
  unfold Canvas.plot
  split
  · exact wf_off _ h
  · rename_i hc
    exact wf_on h (by simpa using hc) (cell_lt hx hy)

theorem wf_foldl_plot {p : Params} {cells : List (Nat × Nat)} {c : Canvas} (h : Display.wf p c.disp)
    (hc : ∀ xy ∈ cells, xy.1 < p.displayW ∧ xy.2 < p.displayH) : Display.wf p (cells.foldl (Canvas.plot p) c).disp := by
  induction cells generalizing c with
  | nil => exact h
  | cons xy cells ih =>
    have hxy := hc xy (by simp)
    exact ih (wf_plot h hxy.1 hxy.2) (fun q hq => hc q (by simp [hq]))

/-- Where no cell is plotted twice (R159), the collision flag asks for a cell that was set before the drawing. -/
theorem foldl_plot_hit (p : Params) (cells : List (Nat × Nat)) (c : Canvas)
    (hn : (cells.map (fun xy => Display.cell p xy.1 xy.2)).Nodup) :
    (cells.foldl (Canvas.plot p) c).hit =
      (c.hit || cells.any (fun xy => c.disp.contains (Display.cell p xy.1 xy.2))) := by
  induction cells generalizing c with
  | nil => simp
  | cons xy cells ih =>
    rw [List.map_cons, List.nodup_cons] at hn
    have hrest : ∀ q ∈ cells, (c.plot p xy).disp.contains (Display.cell p q.1 q.2) =
        c.disp.contains (Display.cell p q.1 q.2) := by
      intro q hq
      have : Display.cell p xy.1 xy.2 ≠ Display.cell p q.1 q.2 := fun e =>
        hn.1 (List.mem_map.2 ⟨q, hq, e.symm⟩)
      exact plot_contains_of_ne c this
    have hhit : (c.plot p xy).hit = (c.hit || c.disp.contains (Display.cell p xy.1 xy.2)) := by
      unfold Canvas.plot; split <;> simp_all
    have hany : cells.any (fun q => (c.plot p xy).disp.contains (Display.cell p q.1 q.2)) =
        cells.any (fun q => c.disp.contains (Display.cell p q.1 q.2)) := by
      rw [Bool.eq_iff_iff, List.any_eq_true, List.any_eq_true]
      exact ⟨fun ⟨q, hq, h⟩ => ⟨q, hq, hrest q hq ▸ h⟩, fun ⟨q, hq, h⟩ => ⟨q, hq, (hrest q hq).symm ▸ h⟩⟩
    rw [List.foldl_cons, ih _ hn.2, hhit, hany, List.any_cons, Bool.or_assoc]

/-- The command a plot emits on a display (R160). -/
def plotCommand (p : Params) (d : List Nat) (xy : Nat × Nat) : DisplayCommand :=
  if d.contains (Display.cell p xy.1 xy.2) then .clearPixel xy.1 xy.2 else .setPixel xy.1 xy.2

/-- Where no cell is plotted twice, the commands are read off the display before the drawing, in drawing order. -/
theorem foldl_plot_commands (p : Params) (cells : List (Nat × Nat)) (c : Canvas)
    (hn : (cells.map (fun xy => Display.cell p xy.1 xy.2)).Nodup) :
    (cells.foldl (Canvas.plot p) c).commands = c.commands ++ cells.map (plotCommand p c.disp) := by
  induction cells generalizing c with
  | nil => simp
  | cons xy cells ih =>
    rw [List.map_cons, List.nodup_cons] at hn
    have hrest : cells.map (plotCommand p (c.plot p xy).disp) = cells.map (plotCommand p c.disp) := by
      refine List.map_congr_left (fun q hq => ?_)
      have : Display.cell p xy.1 xy.2 ≠ Display.cell p q.1 q.2 := fun e =>
        hn.1 (List.mem_map.2 ⟨q, hq, e.symm⟩)
      simp only [plotCommand, plot_contains_of_ne c this]
    have hcom : (c.plot p xy).commands = c.commands ++ [plotCommand p c.disp xy] := by
      unfold Canvas.plot plotCommand; split <;> rfl
    rw [List.foldl_cons, ih _ hn.2, hrest, hcom, List.map_cons, List.append_assoc]; rfl

/-! ## The cells of a sprite -/

/-- The cells a sprite's set bits land on, from its bits: row by row, within a row from the left (R156). -/
theorem spriteCells_eq (p : Params) (x0 y0 : Nat) (f : Nat → Byte) (r n : Nat) :
    spriteCells p x0 y0 r ((List.range' r n).map f) =
      (((List.range' r n).flatMap (fun i => (List.range 8).map (fun c => (i, c)))).filter
        (fun rc => (f rc.1).getLsbD (7 - rc.2))).map
        (fun rc => ((x0 + rc.2) % p.displayW, (y0 + rc.1) % p.displayH)) := by
  induction n generalizing r with
  | zero => simp [spriteCells]
  | succ n ih =>
    rw [List.range'_succ, List.map_cons, spriteCells, ih, List.flatMap_cons, List.filter_append, List.map_append]
    congr 1
    rw [rowColumns, List.filter_map, List.map_map, List.map_map]
    rfl

/-- Every cell of a sprite is inside a grid of positive size (R72). -/
theorem spriteCells_inside {p : Params} (hw : 0 < p.displayW) (hh : 0 < p.displayH) (x0 y0 r : Nat) (rows : List Byte) :
    ∀ xy ∈ spriteCells p x0 y0 r rows, xy.1 < p.displayW ∧ xy.2 < p.displayH := by
  induction rows generalizing r with
  | nil => simp [spriteCells]
  | cons b rows ih =>
    intro xy h
    rw [spriteCells, List.mem_append] at h
    rcases h with h | h
    · obtain ⟨x, hx, rfl⟩ := List.mem_map.1 h
      obtain ⟨c, -, rfl⟩ := List.mem_map.1 hx
      exact ⟨Nat.mod_lt _ hw, Nat.mod_lt _ hh⟩
    · exact ih _ _ h

/-- A drawing on a grid of positive size keeps the canonical form. -/
theorem wf_drawSprite {p : Params} {d : List Nat} (hw : 0 < p.displayW) (hh : 0 < p.displayH) (h : Display.wf p d)
    (x0 y0 : Nat) (rows : List Byte) : Display.wf p (drawSprite p x0 y0 rows d).disp :=
  wf_foldl_plot h (spriteCells_inside hw hh x0 y0 0 rows)

end Sys2Proof.Machine
end

