-- ==== Sys2Proof/Laws/Memory.lean ====
section
/-! SUPPORT. The memory as data: what a read sees after a write, that every operation keeps the canonical form, that a
canonical memory is determined by what it reads as, and what the range check answers. -/

namespace Sys2Proof.Machine

/-! ## Lookup -/

theorem lookup_erase (a b : Nat) (m : List Host.Cell) :
    Memory.lookup b (Memory.erase a m) = if b = a then none else Memory.lookup b m := by
  induction m with
  | nil => simp [Memory.erase, Memory.lookup]
  | cons c m ih =>
    simp only [Memory.erase, List.filter_cons] at ih ⊢
    by_cases hc : c.1 = a
    · subst hc
      simp only [bne_self_eq_false, Bool.false_eq_true, if_false, ih, Memory.lookup]
      by_cases hb : b = c.1
      · simp [hb]
      · simp [hb, Ne.symm hb]
    · simp only [bne_iff_ne, ne_eq, hc, not_false_eq_true, if_true, Memory.lookup, ih]
      by_cases hb : b = a
      · subst hb; simp [hc]
      · simp [hb]

theorem lookup_insert (a b : Nat) (v : Byte) (m : List Host.Cell) (h : Memory.lookup a m = none) :
    Memory.lookup b (Memory.insert a v m) = if b = a then some v else Memory.lookup b m := by
  induction m with
  | nil => simp [Memory.insert, Memory.lookup, eq_comm]
  | cons c m ih =>
    simp only [Memory.lookup] at h
    split at h
    · simp at h
    · rename_i hc
      simp only [Memory.insert]
      split
      · simp only [Memory.lookup, eq_comm]
      · simp only [Memory.lookup, ih h]
        by_cases hb : b = a
        · subst hb; simp [hc]
        · simp [hb]

/-- Read after write, for any memory at all (R61). -/
theorem read_write (p : Params) (m : List Host.Cell) (a b : Nat) (v : Byte) :
    Memory.read p (Memory.write p a v m) b = if b = a then v else Memory.read p m b := by
  unfold Memory.read Memory.write
  split
  · rename_i hv
    rw [lookup_erase]
    split
    · rename_i hb; subst hb; simp [hv]
    · rfl
  · rw [lookup_insert _ _ _ _ (by simp [lookup_erase]), lookup_erase]
    split <;> simp_all

/-- Read after a store of several bytes (R61). -/
theorem read_store (p : Params) (bs : List Byte) (m : List Host.Cell) (a b : Nat) :
    Memory.read p (Memory.store p a bs m) b =
      if h : a ≤ b ∧ b < a + bs.length then bs[b - a]'(by omega) else Memory.read p m b := by
  induction bs generalizing a m with
  | nil =>
    have h : ¬(a ≤ b ∧ b < a + ([] : List Byte).length) := by simp only [List.length_nil]; omega
    rw [Memory.store, dif_neg h]
  | cons v bs ih =>
    rw [Memory.store, ih, read_write]
    by_cases h1 : b = a
    · subst h1; simp
    · by_cases h2 : a + 1 ≤ b ∧ b < a + 1 + bs.length
      · have h3 : a ≤ b ∧ b < a + (v :: bs).length := by simp only [List.length_cons]; omega
        have h4 : b - a = (b - (a + 1)) + 1 := by omega
        rw [dif_pos h2, dif_pos h3]
        simp [h4]
      · have h3 : ¬(a ≤ b ∧ b < a + (v :: bs).length) := by simp only [List.length_cons]; omega
        simp only [h2, h3, h1, dite_false, if_false]

theorem read_store_inside (p : Params) (bs : List Byte) (m : List Host.Cell) (a j : Nat) (h : j < bs.length) :
    Memory.read p (Memory.store p a bs m) (a + j) = bs[j] := by
  rw [read_store, dif_pos ⟨by omega, by omega⟩]
  simp

theorem read_store_outside (p : Params) (bs : List Byte) (m : List Host.Cell) (a b : Nat)
    (h : ¬(a ≤ b ∧ b < a + bs.length)) : Memory.read p (Memory.store p a bs m) b = Memory.read p m b := by
  rw [read_store, dif_neg h]

/-! ## The canonical form -/

theorem wf_nil (p : Params) : Memory.wf p [] := by simp [Memory.wf]

theorem wf_erase {p : Params} {m : List Host.Cell} (a : Nat) (h : Memory.wf p m) : Memory.wf p (Memory.erase a m) :=
  ⟨h.1.filter _, fun c hc => h.2 c (List.mem_of_mem_filter hc)⟩

theorem mem_insert {a : Nat} {v : Byte} {m : List Host.Cell} {c : Host.Cell} :
    c ∈ Memory.insert a v m ↔ c = (a, v) ∨ c ∈ m := by
  induction m with
  | nil => simp [Memory.insert]
  | cons d m ih =>
    simp only [Memory.insert]
    split
    · simp
    · simp only [List.mem_cons, ih]; tauto

theorem pairwise_insert {a : Nat} {v : Byte} {m : List Host.Cell} (h : m.Pairwise (fun c d => c.1 < d.1))
    (ha : ∀ c ∈ m, c.1 ≠ a) : (Memory.insert a v m).Pairwise (fun c d => c.1 < d.1) := by
  induction m with
  | nil => simp [Memory.insert]
  | cons d m ih =>
    rw [List.pairwise_cons] at h
    simp only [Memory.insert]
    split
    · rename_i hd
      refine List.pairwise_cons.2 ⟨fun c hc => ?_, List.pairwise_cons.2 h⟩
      rcases List.mem_cons.1 hc with rfl | hc
      · exact hd
      · exact Nat.lt_trans hd (h.1 c hc)
    · rename_i hd
      have hne := ha d (by simp)
      refine List.pairwise_cons.2 ⟨fun c hc => ?_, ih h.2 (fun c hc => ha c (by simp [hc]))⟩
      rcases mem_insert.1 hc with rfl | hc
      · simp only; omega
      · exact h.1 c hc

/-- A write inside the 4096 bytes keeps the canonical form. -/
theorem wf_write {p : Params} {m : List Host.Cell} {a : Nat} (v : Byte) (h : Memory.wf p m) (ha : a < memorySize) :
    Memory.wf p (Memory.write p a v m) := by
  unfold Memory.write
  split
  · exact wf_erase a h
  · rename_i hv
    have he := wf_erase a h
    refine ⟨pairwise_insert he.1 (fun c hc => ?_), fun c hc => ?_⟩
    · simpa using (List.mem_filter.1 hc).2
    · rcases mem_insert.1 hc with rfl | hc
      · exact ⟨ha, hv⟩
      · exact he.2 c hc

/-- A store inside the 4096 bytes keeps the canonical form. -/
theorem wf_store {p : Params} (bs : List Byte) {m : List Host.Cell} {a : Nat} (h : Memory.wf p m)
    (ha : a + bs.length ≤ memorySize) : Memory.wf p (Memory.store p a bs m) := by
  induction bs generalizing a m with
  | nil => exact h
  | cons v bs ih =>
    simp only [List.length_cons] at ha
    exact ih (wf_write v h (by omega)) (by omega)

theorem lookup_of_lt {m : List Host.Cell} {a : Nat} (h : ∀ c ∈ m, a < c.1) : Memory.lookup a m = none := by
  induction m with
  | nil => rfl
  | cons c m ih =>
    have := h c (by simp)
    rw [Memory.lookup, if_neg (by omega), ih (fun d hd => h d (by simp [hd]))]

/-- Equal canonical memories are equal data: two that read the same at every address are the same list. -/
theorem wf_ext {p : Params} {m n : List Host.Cell} (hm : Memory.wf p m) (hn : Memory.wf p n)
    (h : ∀ a, Memory.read p m a = Memory.read p n a) : m = n := by
  have lookup_eq : ∀ a, Memory.lookup a m = Memory.lookup a n := by
    have key : ∀ {k : List Host.Cell}, Memory.wf p k → ∀ a v, Memory.lookup a k = some v → v ≠ Memory.unlisted p a := by
      intro k hk a v hv
      induction k with
      | nil => simp [Memory.lookup] at hv
      | cons c k ih =>
        rw [Memory.lookup] at hv
        split at hv
        · rename_i hc
          have := (hk.2 c (by simp)).2
          simp_all
        · exact ih ⟨(List.pairwise_cons.1 hk.1).2, fun d hd => hk.2 d (by simp [hd])⟩ hv
    intro a
    have ha := h a
    simp only [Memory.read] at ha
    cases hx : Memory.lookup a m with
    | none =>
      cases hy : Memory.lookup a n with
      | none => rfl
      | some w => simp only [hx, hy, Option.getD] at ha; exact absurd ha.symm (key hn a _ hy)
    | some v =>
      cases hy : Memory.lookup a n with
      | none => simp only [hx, hy, Option.getD] at ha; exact absurd ha (key hm a _ hx)
      | some w => simp only [hx, hy, Option.getD] at ha; rw [ha]
  clear h
  induction m generalizing n with
  | nil =>
    cases n with
    | nil => rfl
    | cons d n => have := lookup_eq d.1; simp [Memory.lookup] at this
  | cons c m ih =>
    cases n with
    | nil => have := lookup_eq c.1; simp [Memory.lookup] at this
    | cons d n =>
      have hm1 := List.pairwise_cons.1 hm.1
      have hn1 := List.pairwise_cons.1 hn.1
      have hcd : c.1 = d.1 := by
        rcases Nat.lt_trichotomy c.1 d.1 with hlt | heq | hlt
        · have := lookup_eq c.1
          rw [lookup_of_lt (m := d :: n)] at this
          · simp [Memory.lookup] at this
          · intro e he
            rcases List.mem_cons.1 he with rfl | he
            · exact hlt
            · exact Nat.lt_trans hlt (hn1.1 e he)
        · exact heq
        · have := lookup_eq d.1
          rw [lookup_of_lt (m := c :: m)] at this
          · simp [Memory.lookup] at this
          · intro e he
            rcases List.mem_cons.1 he with rfl | he
            · exact hlt
            · exact Nat.lt_trans hlt (hm1.1 e he)
      have hc2 : c = d := by
        have := lookup_eq c.1
        simp [Memory.lookup, hcd] at this
        exact Prod.ext hcd this
      subst hc2
      rw [ih ⟨hm1.2, fun e he => hm.2 e (by simp [he])⟩ ⟨hn1.2, fun e he => hn.2 e (by simp [he])⟩]
      intro a
      by_cases ha : c.1 = a
      · subst ha; rw [lookup_of_lt hm1.1, lookup_of_lt hn1.1]
      · have := lookup_eq a
        simpa [Memory.lookup, ha] using this

/-! ## The range check -/

theorem rangeFault_eq_none {base n : Nat} : rangeFault base n = none ↔ n = 0 ∨ base + n - 1 ≤ 0x0FFF := by
  unfold rangeFault
  split
  · simp_all
  · split <;> simp_all

theorem rangeFault_eq_some {base n a : Nat} :
    rangeFault base n = some a ↔
      0 < n ∧ base + n - 1 > 0x0FFF ∧ a = if base > 0x0FFF then base else 0x1000 := by
  unfold rangeFault
  split
  · simp_all
  · split
    · simp_all
    · simp only [Option.some.injEq]
      constructor
      · rintro rfl; exact ⟨by omega, by omega, rfl⟩
      · rintro ⟨-, -, rfl⟩; rfl

end Sys2Proof.Machine
end

