-- ==== Sys2Proof/Laws/State.lean ====
section
/-! SUPPORT. One lemma per field per update, true by rfl, so that no later proof unfolds a record update. The composed
updates (`setFlag`, `setRegFlag`, `advance`, `stay`, `skipIf`) are first rewritten to the plain ones. -/

namespace Sys2Proof.Machine

variable (s : State)

@[simp] theorem setFlag_eq (f : Bool) : s.setFlag f = s.setReg flagReg (flagByte f) := rfl

@[simp] theorem setRegFlag_eq (x : RegIx) (b : Byte) (f : Bool) :
    s.setRegFlag x b f = (s.setReg x b).setReg flagReg (flagByte f) := rfl

@[simp] theorem advance_eq : s.advance = s.jumpTo (s.pc + 2#16) := rfl

@[simp] theorem stay_eq : s.stay = s.jumpTo (s.pc - 2#16) := rfl

theorem skipIf_eq (c : Bool) : s.skipIf c = s.jumpTo (s.pc + if c then 2#16 else 0#16) := by
  cases c <;> simp [State.skipIf, State.jumpTo]

/-! ## setReg -/

@[simp] theorem setReg_v (x : RegIx) (b : Byte) : (s.setReg x b).v = s.v.set x.val b := rfl
@[simp] theorem setReg_index (x : RegIx) (b : Byte) : (s.setReg x b).index = s.index := rfl
@[simp] theorem setReg_pc (x : RegIx) (b : Byte) : (s.setReg x b).pc = s.pc := rfl
@[simp] theorem setReg_stack (x : RegIx) (b : Byte) : (s.setReg x b).stack = s.stack := rfl
@[simp] theorem setReg_sp (x : RegIx) (b : Byte) : (s.setReg x b).sp = s.sp := rfl
@[simp] theorem setReg_dt (x : RegIx) (b : Byte) : (s.setReg x b).dt = s.dt := rfl
@[simp] theorem setReg_st (x : RegIx) (b : Byte) : (s.setReg x b).st = s.st := rfl
@[simp] theorem setReg_mem (x : RegIx) (b : Byte) : (s.setReg x b).mem = s.mem := rfl
@[simp] theorem setReg_disp (x : RegIx) (b : Byte) : (s.setReg x b).disp = s.disp := rfl
@[simp] theorem setReg_awaiting (x : RegIx) (b : Byte) : (s.setReg x b).awaiting = s.awaiting := rfl
@[simp] theorem setReg_commands (x : RegIx) (b : Byte) : (s.setReg x b).commands = s.commands := rfl
@[simp] theorem setReg_error (x : RegIx) (b : Byte) : (s.setReg x b).error = s.error := rfl
@[simp] theorem setReg_params (x : RegIx) (b : Byte) : (s.setReg x b).params = s.params := rfl
@[simp] theorem setReg_onError (x : RegIx) (b : Byte) : (s.setReg x b).onError = s.onError := rfl
@[simp] theorem setReg_schedule (x : RegIx) (b : Byte) : (s.setReg x b).schedule = s.schedule := rfl
@[simp] theorem setReg_turn (x : RegIx) (b : Byte) : (s.setReg x b).turn = s.turn := rfl

/-! ## setIndex -/

@[simp] theorem setIndex_v (w : Word) : (s.setIndex w).v = s.v := rfl
@[simp] theorem setIndex_index (w : Word) : (s.setIndex w).index = w := rfl
@[simp] theorem setIndex_pc (w : Word) : (s.setIndex w).pc = s.pc := rfl
@[simp] theorem setIndex_stack (w : Word) : (s.setIndex w).stack = s.stack := rfl
@[simp] theorem setIndex_sp (w : Word) : (s.setIndex w).sp = s.sp := rfl
@[simp] theorem setIndex_dt (w : Word) : (s.setIndex w).dt = s.dt := rfl
@[simp] theorem setIndex_st (w : Word) : (s.setIndex w).st = s.st := rfl
@[simp] theorem setIndex_mem (w : Word) : (s.setIndex w).mem = s.mem := rfl
@[simp] theorem setIndex_disp (w : Word) : (s.setIndex w).disp = s.disp := rfl
@[simp] theorem setIndex_awaiting (w : Word) : (s.setIndex w).awaiting = s.awaiting := rfl
@[simp] theorem setIndex_commands (w : Word) : (s.setIndex w).commands = s.commands := rfl
@[simp] theorem setIndex_error (w : Word) : (s.setIndex w).error = s.error := rfl
@[simp] theorem setIndex_params (w : Word) : (s.setIndex w).params = s.params := rfl
@[simp] theorem setIndex_onError (w : Word) : (s.setIndex w).onError = s.onError := rfl
@[simp] theorem setIndex_schedule (w : Word) : (s.setIndex w).schedule = s.schedule := rfl
@[simp] theorem setIndex_turn (w : Word) : (s.setIndex w).turn = s.turn := rfl

/-! ## loadRegs -/

@[simp] theorem loadRegs_v (x : RegIx) (f : Nat → Byte) : (s.loadRegs x f).v = Vector.ofFn (fun j : Fin 16 => if j.val ≤ x.val then f j.val else s.v[j.val]) := rfl
@[simp] theorem loadRegs_index (x : RegIx) (f : Nat → Byte) : (s.loadRegs x f).index = s.index := rfl
@[simp] theorem loadRegs_pc (x : RegIx) (f : Nat → Byte) : (s.loadRegs x f).pc = s.pc := rfl
@[simp] theorem loadRegs_stack (x : RegIx) (f : Nat → Byte) : (s.loadRegs x f).stack = s.stack := rfl
@[simp] theorem loadRegs_sp (x : RegIx) (f : Nat → Byte) : (s.loadRegs x f).sp = s.sp := rfl
@[simp] theorem loadRegs_dt (x : RegIx) (f : Nat → Byte) : (s.loadRegs x f).dt = s.dt := rfl
@[simp] theorem loadRegs_st (x : RegIx) (f : Nat → Byte) : (s.loadRegs x f).st = s.st := rfl
@[simp] theorem loadRegs_mem (x : RegIx) (f : Nat → Byte) : (s.loadRegs x f).mem = s.mem := rfl
@[simp] theorem loadRegs_disp (x : RegIx) (f : Nat → Byte) : (s.loadRegs x f).disp = s.disp := rfl
@[simp] theorem loadRegs_awaiting (x : RegIx) (f : Nat → Byte) : (s.loadRegs x f).awaiting = s.awaiting := rfl
@[simp] theorem loadRegs_commands (x : RegIx) (f : Nat → Byte) : (s.loadRegs x f).commands = s.commands := rfl
@[simp] theorem loadRegs_error (x : RegIx) (f : Nat → Byte) : (s.loadRegs x f).error = s.error := rfl
@[simp] theorem loadRegs_params (x : RegIx) (f : Nat → Byte) : (s.loadRegs x f).params = s.params := rfl
@[simp] theorem loadRegs_onError (x : RegIx) (f : Nat → Byte) : (s.loadRegs x f).onError = s.onError := rfl
@[simp] theorem loadRegs_schedule (x : RegIx) (f : Nat → Byte) : (s.loadRegs x f).schedule = s.schedule := rfl
@[simp] theorem loadRegs_turn (x : RegIx) (f : Nat → Byte) : (s.loadRegs x f).turn = s.turn := rfl

/-! ## jumpTo -/

@[simp] theorem jumpTo_v (w : Word) : (s.jumpTo w).v = s.v := rfl
@[simp] theorem jumpTo_index (w : Word) : (s.jumpTo w).index = s.index := rfl
@[simp] theorem jumpTo_pc (w : Word) : (s.jumpTo w).pc = w := rfl
@[simp] theorem jumpTo_stack (w : Word) : (s.jumpTo w).stack = s.stack := rfl
@[simp] theorem jumpTo_sp (w : Word) : (s.jumpTo w).sp = s.sp := rfl
@[simp] theorem jumpTo_dt (w : Word) : (s.jumpTo w).dt = s.dt := rfl
@[simp] theorem jumpTo_st (w : Word) : (s.jumpTo w).st = s.st := rfl
@[simp] theorem jumpTo_mem (w : Word) : (s.jumpTo w).mem = s.mem := rfl
@[simp] theorem jumpTo_disp (w : Word) : (s.jumpTo w).disp = s.disp := rfl
@[simp] theorem jumpTo_awaiting (w : Word) : (s.jumpTo w).awaiting = s.awaiting := rfl
@[simp] theorem jumpTo_commands (w : Word) : (s.jumpTo w).commands = s.commands := rfl
@[simp] theorem jumpTo_error (w : Word) : (s.jumpTo w).error = s.error := rfl
@[simp] theorem jumpTo_params (w : Word) : (s.jumpTo w).params = s.params := rfl
@[simp] theorem jumpTo_onError (w : Word) : (s.jumpTo w).onError = s.onError := rfl
@[simp] theorem jumpTo_schedule (w : Word) : (s.jumpTo w).schedule = s.schedule := rfl
@[simp] theorem jumpTo_turn (w : Word) : (s.jumpTo w).turn = s.turn := rfl

/-! ## storeBytes -/

@[simp] theorem storeBytes_v (a : Nat) (bs : List Byte) : (s.storeBytes a bs).v = s.v := rfl
@[simp] theorem storeBytes_index (a : Nat) (bs : List Byte) : (s.storeBytes a bs).index = s.index := rfl
@[simp] theorem storeBytes_pc (a : Nat) (bs : List Byte) : (s.storeBytes a bs).pc = s.pc := rfl
@[simp] theorem storeBytes_stack (a : Nat) (bs : List Byte) : (s.storeBytes a bs).stack = s.stack := rfl
@[simp] theorem storeBytes_sp (a : Nat) (bs : List Byte) : (s.storeBytes a bs).sp = s.sp := rfl
@[simp] theorem storeBytes_dt (a : Nat) (bs : List Byte) : (s.storeBytes a bs).dt = s.dt := rfl
@[simp] theorem storeBytes_st (a : Nat) (bs : List Byte) : (s.storeBytes a bs).st = s.st := rfl
@[simp] theorem storeBytes_mem (a : Nat) (bs : List Byte) : (s.storeBytes a bs).mem = Memory.store s.params a bs s.mem := rfl
@[simp] theorem storeBytes_disp (a : Nat) (bs : List Byte) : (s.storeBytes a bs).disp = s.disp := rfl
@[simp] theorem storeBytes_awaiting (a : Nat) (bs : List Byte) : (s.storeBytes a bs).awaiting = s.awaiting := rfl
@[simp] theorem storeBytes_commands (a : Nat) (bs : List Byte) : (s.storeBytes a bs).commands = s.commands := rfl
@[simp] theorem storeBytes_error (a : Nat) (bs : List Byte) : (s.storeBytes a bs).error = s.error := rfl
@[simp] theorem storeBytes_params (a : Nat) (bs : List Byte) : (s.storeBytes a bs).params = s.params := rfl
@[simp] theorem storeBytes_onError (a : Nat) (bs : List Byte) : (s.storeBytes a bs).onError = s.onError := rfl
@[simp] theorem storeBytes_schedule (a : Nat) (bs : List Byte) : (s.storeBytes a bs).schedule = s.schedule := rfl
@[simp] theorem storeBytes_turn (a : Nat) (bs : List Byte) : (s.storeBytes a bs).turn = s.turn := rfl

/-! ## emit -/

@[simp] theorem emit_v (cs : List DisplayCommand) : (s.emit cs).v = s.v := rfl
@[simp] theorem emit_index (cs : List DisplayCommand) : (s.emit cs).index = s.index := rfl
@[simp] theorem emit_pc (cs : List DisplayCommand) : (s.emit cs).pc = s.pc := rfl
@[simp] theorem emit_stack (cs : List DisplayCommand) : (s.emit cs).stack = s.stack := rfl
@[simp] theorem emit_sp (cs : List DisplayCommand) : (s.emit cs).sp = s.sp := rfl
@[simp] theorem emit_dt (cs : List DisplayCommand) : (s.emit cs).dt = s.dt := rfl
@[simp] theorem emit_st (cs : List DisplayCommand) : (s.emit cs).st = s.st := rfl
@[simp] theorem emit_mem (cs : List DisplayCommand) : (s.emit cs).mem = s.mem := rfl
@[simp] theorem emit_disp (cs : List DisplayCommand) : (s.emit cs).disp = s.disp := rfl
@[simp] theorem emit_awaiting (cs : List DisplayCommand) : (s.emit cs).awaiting = s.awaiting := rfl
@[simp] theorem emit_commands (cs : List DisplayCommand) : (s.emit cs).commands = s.commands ++ cs := rfl
@[simp] theorem emit_error (cs : List DisplayCommand) : (s.emit cs).error = s.error := rfl
@[simp] theorem emit_params (cs : List DisplayCommand) : (s.emit cs).params = s.params := rfl
@[simp] theorem emit_onError (cs : List DisplayCommand) : (s.emit cs).onError = s.onError := rfl
@[simp] theorem emit_schedule (cs : List DisplayCommand) : (s.emit cs).schedule = s.schedule := rfl
@[simp] theorem emit_turn (cs : List DisplayCommand) : (s.emit cs).turn = s.turn := rfl

/-! ## beginStep -/

@[simp] theorem beginStep_v : (beginStep s).v = s.v := rfl
@[simp] theorem beginStep_index : (beginStep s).index = s.index := rfl
@[simp] theorem beginStep_pc : (beginStep s).pc = s.pc := rfl
@[simp] theorem beginStep_stack : (beginStep s).stack = s.stack := rfl
@[simp] theorem beginStep_sp : (beginStep s).sp = s.sp := rfl
@[simp] theorem beginStep_dt : (beginStep s).dt = s.dt := rfl
@[simp] theorem beginStep_st : (beginStep s).st = s.st := rfl
@[simp] theorem beginStep_mem : (beginStep s).mem = s.mem := rfl
@[simp] theorem beginStep_disp : (beginStep s).disp = s.disp := rfl
@[simp] theorem beginStep_awaiting : (beginStep s).awaiting = s.awaiting := rfl
@[simp] theorem beginStep_commands : (beginStep s).commands = [] := rfl
@[simp] theorem beginStep_error : (beginStep s).error = none := rfl
@[simp] theorem beginStep_params : (beginStep s).params = s.params := rfl
@[simp] theorem beginStep_onError : (beginStep s).onError = s.onError := rfl
@[simp] theorem beginStep_schedule : (beginStep s).schedule = s.schedule := rfl
@[simp] theorem beginStep_turn : (beginStep s).turn = s.turn := rfl

/-! ## tickTimers -/

@[simp] theorem tickTimers_v : (tickTimers s).v = s.v := rfl
@[simp] theorem tickTimers_index : (tickTimers s).index = s.index := rfl
@[simp] theorem tickTimers_pc : (tickTimers s).pc = s.pc := rfl
@[simp] theorem tickTimers_stack : (tickTimers s).stack = s.stack := rfl
@[simp] theorem tickTimers_sp : (tickTimers s).sp = s.sp := rfl
@[simp] theorem tickTimers_dt : (tickTimers s).dt = countDown s.dt := rfl
@[simp] theorem tickTimers_st : (tickTimers s).st = countDown s.st := rfl
@[simp] theorem tickTimers_mem : (tickTimers s).mem = s.mem := rfl
@[simp] theorem tickTimers_disp : (tickTimers s).disp = s.disp := rfl
@[simp] theorem tickTimers_awaiting : (tickTimers s).awaiting = s.awaiting := rfl
@[simp] theorem tickTimers_commands : (tickTimers s).commands = s.commands := rfl
@[simp] theorem tickTimers_error : (tickTimers s).error = s.error := rfl
@[simp] theorem tickTimers_params : (tickTimers s).params = s.params := rfl
@[simp] theorem tickTimers_onError : (tickTimers s).onError = s.onError := rfl
@[simp] theorem tickTimers_schedule : (tickTimers s).schedule = s.schedule := rfl
@[simp] theorem tickTimers_turn : (tickTimers s).turn = s.turn := rfl

/-! ## endTurn -/

@[simp] theorem endTurn_v : (endTurn s).v = s.v := rfl
@[simp] theorem endTurn_index : (endTurn s).index = s.index := rfl
@[simp] theorem endTurn_pc : (endTurn s).pc = s.pc := rfl
@[simp] theorem endTurn_stack : (endTurn s).stack = s.stack := rfl
@[simp] theorem endTurn_sp : (endTurn s).sp = s.sp := rfl
@[simp] theorem endTurn_dt : (endTurn s).dt = countDownBy s.hostTurn.ticks s.dt := rfl
@[simp] theorem endTurn_st : (endTurn s).st = countDownBy s.hostTurn.ticks s.st := rfl
@[simp] theorem endTurn_mem : (endTurn s).mem = s.mem := rfl
@[simp] theorem endTurn_disp : (endTurn s).disp = s.disp := rfl
@[simp] theorem endTurn_awaiting : (endTurn s).awaiting = s.awaiting := rfl
@[simp] theorem endTurn_commands : (endTurn s).commands = s.commands := rfl
@[simp] theorem endTurn_error : (endTurn s).error = s.error := rfl
@[simp] theorem endTurn_params : (endTurn s).params = s.params := rfl
@[simp] theorem endTurn_onError : (endTurn s).onError = s.onError := rfl
@[simp] theorem endTurn_schedule : (endTurn s).schedule = s.schedule.tail := rfl
@[simp] theorem endTurn_turn : (endTurn s).turn = s.turn + 1 := rfl

end Sys2Proof.Machine
end

