-- ==== Sys2Proof/Laws/Ops.lean ====
section
/-! SUPPORT. The shared operations: what each can do, said once. -/

namespace Sys2Proof.Machine

/-! ## Registers -/

theorem reg_of_v {s t : State} (h : t.v = s.v) (r : RegIx) : t.reg r = s.reg r := by simp only [State.reg, h]

/-- A register reads back what was written to it, every other one what it held (R21). -/
@[simp] theorem reg_setReg (s : State) (x r : RegIx) (b : Byte) :
    (s.setReg x b).reg r = if r = x then b else s.reg r := by
  simp only [State.reg, State.setReg, Vector.getElem_set]
  by_cases h : r = x
  · simp [h]
  · have : ¬x.val = r.val := fun e => h (Fin.ext e.symm)
    simp [h, this]

@[simp] theorem reg_loadRegs (s : State) (x r : RegIx) (f : Nat → Byte) :
    (s.loadRegs x f).reg r = if r ≤ x then f r.val else s.reg r := by
  simp only [State.reg, State.loadRegs, Vector.getElem_ofFn, Fin.le_def]

@[simp] theorem reg_jumpTo (s : State) (w : Word) (r : RegIx) : (s.jumpTo w).reg r = s.reg r := rfl
@[simp] theorem reg_setIndex (s : State) (w : Word) (r : RegIx) : (s.setIndex w).reg r = s.reg r := rfl
@[simp] theorem reg_storeBytes (s : State) (a : Nat) (bs : List Byte) (r : RegIx) :
    (s.storeBytes a bs).reg r = s.reg r := rfl
@[simp] theorem reg_emit (s : State) (cs : List DisplayCommand) (r : RegIx) : (s.emit cs).reg r = s.reg r := rfl

/-- `V[0]` to `V[x]` as a list: its length and its entries. -/
@[simp] theorem length_regsUpTo (s : State) (x : RegIx) : (s.regsUpTo x).length = x.val + 1 := by
  simp only [State.regsUpTo, List.length_take, Vector.length_toList]; omega

theorem getElem_regsUpTo (s : State) (x j : RegIx) (h : j.val < (s.regsUpTo x).length) :
    (s.regsUpTo x)[j.val] = s.reg j := by
  simp [State.regsUpTo, State.reg]

/-- A flag in a byte is 0 or 1 (R34). -/
theorem toNat_flagByte (f : Bool) : (flagByte f).toNat = if f then 1 else 0 := by cases f <;> rfl

/-! ## Memory -/

theorem byte_of_mem {s t : State} (hp : t.params = s.params) (hm : t.mem = s.mem) (a : Nat) : t.byte a = s.byte a := by
  simp only [State.byte, hp, hm]

@[simp] theorem byte_setReg (s : State) (x : RegIx) (b : Byte) (a : Nat) : (s.setReg x b).byte a = s.byte a := rfl
@[simp] theorem byte_loadRegs (s : State) (x : RegIx) (f : Nat → Byte) (a : Nat) : (s.loadRegs x f).byte a = s.byte a := rfl
@[simp] theorem byte_jumpTo (s : State) (w : Word) (a : Nat) : (s.jumpTo w).byte a = s.byte a := rfl
@[simp] theorem byte_setIndex (s : State) (w : Word) (a : Nat) : (s.setIndex w).byte a = s.byte a := rfl
@[simp] theorem byte_emit (s : State) (cs : List DisplayCommand) (a : Nat) : (s.emit cs).byte a = s.byte a := rfl
@[simp] theorem byte_beginStep (s : State) (a : Nat) : (beginStep s).byte a = s.byte a := rfl
@[simp] theorem byte_tickTimers (s : State) (a : Nat) : (tickTimers s).byte a = s.byte a := rfl
@[simp] theorem byte_endTurn (s : State) (a : Nat) : (endTurn s).byte a = s.byte a := rfl

theorem byte_storeBytes_inside (s : State) (a j : Nat) (bs : List Byte) (h : j < bs.length) :
    (s.storeBytes a bs).byte (a + j) = bs[j] := read_store_inside s.params bs s.mem a j h

theorem byte_storeBytes_outside (s : State) (a b : Nat) (bs : List Byte) (h : ¬(a ≤ b ∧ b < a + bs.length)) :
    (s.storeBytes a bs).byte b = s.byte b := read_store_outside s.params bs s.mem a b h

/-! ## Errors and outcomes -/

theorem raise_halt {s : State} (f : Fault) (h : s.onError = .halt) : raise f s = .fault f := by simp only [raise, h]

theorem raise_goOn {s : State} (f : Fault) (h : s.onError = .goOn) : raise f s = .next { s with error := some f } := by
  simp only [raise, h]

/-- Everything raising an error can do. -/
theorem raise_cases (f : Fault) (s : State) :
    (s.onError = .halt ∧ raise f s = .fault f) ∨ (s.onError = .goOn ∧ raise f s = .next { s with error := some f }) := by
  have h : s.onError = .halt ∨ s.onError = .goOn := by cases s.onError <;> simp
  exact h.imp (fun h => ⟨h, raise_halt f h⟩) (fun h => ⟨h, raise_goOn f h⟩)

/-- Everything an access through `I` can do: its effect where all bytes are in memory, else the error. -/
theorem withIndexRange_cases (n : Nat) (s e : State) :
    ((n = 0 ∨ s.index.toNat + n - 1 ≤ 0xFFF) ∧ withIndexRange n s e = .next e) ∨
    (0 < n ∧ s.index.toNat + n - 1 > 0xFFF ∧
      withIndexRange n s e = raise (.memoryRangeFault (if s.index.toNat > 0xFFF then s.index.toNat else 0x1000)) s) := by
  unfold withIndexRange
  cases h : rangeFault s.index.toNat n with
  | none => exact .inl ⟨rangeFault_eq_none.1 h, rfl⟩
  | some a =>
    obtain ⟨h1, h2, rfl⟩ := rangeFault_eq_some.1 h
    exact .inr ⟨h1, h2, rfl⟩

theorem withIndexRange_next {n : Nat} {s : State} (e : State) (h : n = 0 ∨ s.index.toNat + n - 1 ≤ 0xFFF) :
    withIndexRange n s e = .next e := by
  rcases withIndexRange_cases n s e with h' | ⟨h1, h2, -⟩
  · exact h'.2
  · omega

/-- An outcome with a function applied to its next state goes on exactly where the outcome does. -/
theorem onNext_eq_next {f : State → State} {r : Result} {t : State} :
    onNext f r = .next t ↔ ∃ u, r = .next u ∧ t = f u := by
  cases r <;> simp [onNext, eq_comm]

/-! ## The call stack -/

theorem push_eq_some {s : State} (h : s.sp.val < 16) :
    s.push = some { s with
      stack := s.stack.set s.sp.val s.pc, sp := ⟨s.sp.val + 1, Nat.succ_lt_succ h⟩ } := by
  simp only [State.push, dif_pos h]

theorem push_eq_none {s : State} (h : s.sp.val = 16) : s.push = none := by
  simp only [State.push, dif_neg (by omega : ¬s.sp.val < 16)]

theorem pop_eq_none {s : State} (h : s.sp.val = 0) : s.pop = none := by
  simp only [State.pop, dif_neg (by omega : ¬0 < s.sp.val)]

theorem pop_eq_some {s : State} {j : Fin 16} (h : s.sp.val = j.val + 1) :
    s.pop = some { s with sp := j.castSucc, pc := s.stack[j.val] } := by
  have hpos : 0 < s.sp.val := by omega
  have hj : s.sp.val - 1 = j.val := by omega
  simp only [State.pop, dif_pos hpos, hj]
  rfl

/-! ## Timers -/

theorem toNat_countDown (t : Byte) : (countDown t).toNat = t.toNat - 1 := by
  unfold countDown
  split
  · rename_i h; subst h; rfl
  · rename_i h
    have : t.toNat ≠ 0 := fun e => h (BitVec.eq_of_toNat_eq (by simpa using e))
    rw [BitVec.toNat_sub]; have := t.isLt; simp only [BitVec.toNat_ofNat]; omega

theorem toNat_countDownBy (n : Nat) (t : Byte) : (countDownBy n t).toNat = t.toNat - n := by
  unfold countDownBy
  split
  · rename_i h; subst h; simp
  · have := t.isLt; rw [BitVec.toNat_ofNat]; omega

/-- The closed form is the engine's tick repeated (R231). -/
theorem countDownBy_succ (n : Nat) (t : Byte) : countDownBy (n + 1) t = countDownBy n (countDown t) := by
  apply BitVec.eq_of_toNat_eq
  rw [toNat_countDownBy, toNat_countDownBy, toNat_countDown]; omega

@[simp] theorem countDownBy_zero (t : Byte) : countDownBy 0 t = t := by
  apply BitVec.eq_of_toNat_eq; rw [toNat_countDownBy]; rfl

end Sys2Proof.Machine
end

