-- ==== Sys2Proof/Laws/Exec.lean ====
section
/-! SUPPORT. What an instruction and a step can do, said once: an instruction raises its own check's error or goes on, and a
step is one of four cases. -/

namespace Sys2Proof.Machine

/-! ## Instructions with an own check -/

theorem exec_call_free {nnn : Addr12} {s : State} (h : s.sp.val < 16) :
    exec (.call nnn) s = .next { s with
      stack := s.stack.set s.sp.val s.pc, sp := ⟨s.sp.val + 1, Nat.succ_lt_succ h⟩, pc := zextAddr nnn } := by
  show execCall nnn s = _
  rw [execCall, push_eq_some h]
  rfl

theorem exec_call_full {nnn : Addr12} {s : State} (h : s.sp.val = 16) :
    exec (.call nnn) s = raise (.stackFault .overflow) s := by
  show execCall nnn s = _
  rw [execCall, push_eq_none h]

theorem exec_ret_occupied {s : State} {j : Fin 16} (h : s.sp.val = j.val + 1) :
    exec .ret s = .next { s with sp := j.castSucc, pc := s.stack[j.val] } := by
  show execRet s = _
  rw [execRet, pop_eq_some h]

theorem exec_ret_empty {s : State} (h : s.sp.val = 0) : exec .ret s = raise (.stackFault .underflow) s := by
  show execRet s = _
  rw [execRet, pop_eq_none h]

/-- The error an instruction's own check raises on a state (R212, R213). -/
def ownError (i : Instr) (s : State) : Option Fault :=
  match i with
  | .call _ => if s.sp.val = 16 then some (.stackFault .overflow) else none
  | .ret => if s.sp.val = 0 then some (.stackFault .underflow) else none
  | .drw _ _ n =>
    if 0 < n.val ∧ s.index.toNat + n.val - 1 > 0xFFF then some (.memoryRangeFault (offending s.index.toNat)) else none
  | .ldB _ => if s.index.toNat + 2 > 0xFFF then some (.memoryRangeFault (offending s.index.toNat)) else none
  | .stRegs x | .ldRegs x =>
    if s.index.toNat + x.val > 0xFFF then some (.memoryRangeFault (offending s.index.toNat)) else none
  | _ => none

/-- What no instruction that goes on touches: the error field, the parameters, the policy and the host's turns. -/
structure KeepsHostSide (s t : State) : Prop where
  /-- The error field. -/
  error : t.error = s.error
  /-- The parameters. -/
  params : t.params = s.params
  /-- The policy. -/
  onError : t.onError = s.onError
  /-- The schedule. -/
  schedule : t.schedule = s.schedule
  /-- The turn. -/
  turn : t.turn = s.turn

theorem keepsHostSide_skipIf (s : State) (c : Bool) : KeepsHostSide s (s.skipIf c) := by
  cases c <;> exact ⟨rfl, rfl, rfl, rfl, rfl⟩

theorem keepsHostSide_pollKey (s : State) (x : RegIx) : KeepsHostSide s (s.pollKey x) := by
  unfold State.pollKey
  split <;> exact ⟨rfl, rfl, rfl, rfl, rfl⟩

theorem keepsHostSide_loadRegs (s : State) (x : RegIx) (f : Nat → Byte) : KeepsHostSide s (s.loadRegs x f) :=
  ⟨loadRegs_error .., loadRegs_params .., loadRegs_onError .., loadRegs_schedule .., loadRegs_turn ..⟩

theorem withIndexRange_spec (n : Nat) (s e : State) (h : KeepsHostSide s e) {own : Option Fault}
    (ho : own = if 0 < n ∧ s.index.toNat + n - 1 > 0xFFF then
      some (.memoryRangeFault (offending s.index.toNat)) else none) :
    (∃ f, own = some f ∧ withIndexRange n s e = raise f s) ∨
    (own = none ∧ ∃ t, withIndexRange n s e = .next t ∧ KeepsHostSide s t) := by
  rcases withIndexRange_cases n s e with ⟨h1, h2⟩ | ⟨h1, h2, h3⟩
  · exact .inr ⟨by rw [ho, if_neg (by omega)], e, h2, h⟩
  · exact .inl ⟨_, by rw [ho, if_pos ⟨h1, h2⟩]; rfl, h3⟩

/-- Everything an instruction can do, as to its outcome: its own check's error, from the state it was given, or a next state
that has not touched the host's side. It never refuses. -/
theorem exec_spec (i : Instr) (s : State) :
    (∃ f, ownError i s = some f ∧ exec i s = raise f s) ∨
    (ownError i s = none ∧ ∃ t, exec i s = .next t ∧ KeepsHostSide s t) := by
  cases i
  case call nnn =>
    by_cases h : s.sp.val = 16
    · exact .inl ⟨_, if_pos h, exec_call_full h⟩
    · have h' : s.sp.val < 16 := by have := s.sp.isLt; omega
      exact .inr ⟨if_neg h, _, exec_call_free h', ⟨rfl, rfl, rfl, rfl, rfl⟩⟩
  case ret =>
    by_cases h : s.sp.val = 0
    · exact .inl ⟨_, if_pos h, exec_ret_empty h⟩
    · have hlt := s.sp.isLt
      have h' : s.sp.val = (⟨s.sp.val - 1, by omega⟩ : Fin 16).val + 1 := by simp only; omega
      exact .inr ⟨if_neg h, _, exec_ret_occupied h', ⟨rfl, rfl, rfl, rfl, rfl⟩⟩
  case drw x y n => exact withIndexRange_spec n.val s (s.takeCanvas (s.drawn x y n.val)) ⟨rfl, rfl, rfl, rfl, rfl⟩ rfl
  case ldB x =>
    refine withIndexRange_spec 3 s (s.storeBytes (s.ea 0) (bcdDigits (s.reg x))) ⟨rfl, rfl, rfl, rfl, rfl⟩ ?_
    simp only [ownError, Nat.zero_lt_succ, true_and]; rfl
  case stRegs x =>
    refine withIndexRange_spec (x.val + 1) s (s.storeBytes (s.ea 0) (s.regsUpTo x)) ⟨rfl, rfl, rfl, rfl, rfl⟩ ?_
    simp only [ownError, Nat.zero_lt_succ, true_and]; rfl
  case ldRegs x =>
    refine withIndexRange_spec (x.val + 1) s (s.loadRegs x (fun j => s.byte (s.ea j)))
      (keepsHostSide_loadRegs ..) ?_
    simp only [ownError, Nat.zero_lt_succ, true_and]; rfl
  case seImm | sneImm | seReg | sneReg | skp | sknp => exact .inr ⟨rfl, _, rfl, keepsHostSide_skipIf _ _⟩
  case ldVxK x =>
    refine .inr ⟨rfl, _, rfl, ?_⟩
    cases s.awaiting
    · exact ⟨rfl, rfl, rfl, rfl, rfl⟩
    · exact keepsHostSide_pollKey _ _
  all_goals exact .inr ⟨rfl, _, rfl, ⟨rfl, rfl, rfl, rfl, rfl⟩⟩

/-! ## The step -/

theorem fetchFault_eq_none {s : State} (h : s.pc.toNat ≤ 0xFFE) : s.fetchFault = none :=
  rangeFault_eq_none.2 (.inr (by omega))

theorem fetchFault_eq_some {s : State} (h : s.pc.toNat > 0xFFE) : s.fetchFault = some (offending s.pc.toNat) :=
  rangeFault_eq_some.2 ⟨by omega, by omega, rfl⟩

/-- A step whose fetch is out of range (R62). -/
theorem step_of_fetchFault {s : State} (h : s.pc.toNat > 0xFFE) :
    step s = onNext endTurn (raise (.memoryRangeFault (offending s.pc.toNat)) (beginStep s)) := by
  unfold step fetchDecode
  rw [fetchFault_eq_some (s := beginStep s) h]
  rfl

/-- A step whose word is illegal (R211). -/
theorem step_of_illegal {s : State} (h : s.pc.toNat ≤ 0xFFE) (hd : decodeWord s.fetchWord = none) :
    step s = onNext endTurn (raise (.unknownInstruction s.fetchWord) (beginStep s).advance) := by
  have hd' : decodeWord (beginStep s).fetchWord = none := hd
  unfold step fetchDecode
  rw [fetchFault_eq_none (s := beginStep s) h, hd']
  rfl

/-- A step that runs an instruction (R84). -/
theorem step_of_decoded {s : State} {i : Instr} (h : s.pc.toNat ≤ 0xFFE) (hd : decodeWord s.fetchWord = some i) :
    step s = onNext endTurn (exec i (beginStep s).advance) := by
  have hd' : decodeWord (beginStep s).fetchWord = some i := hd
  unfold step fetchDecode
  rw [fetchFault_eq_none (s := beginStep s) h, hd']

/-- Everything a step that goes on can have done: run an instruction to a next state, or, under the policy that goes on,
noted an error with `pc` where R214 leaves it. -/
theorem step_next_cases {s t : State} (h : step s = .next t) :
    (∃ i u, s.pc.toNat ≤ 0xFFE ∧ decodeWord s.fetchWord = some i ∧ ownError i s = none ∧
      exec i (beginStep s).advance = .next u ∧ KeepsHostSide (beginStep s).advance u ∧ t = endTurn u) ∨
    (∃ f, s.onError = .goOn ∧
      t = endTurn { beginStep s with
        pc := if s.pc.toNat > 0xFFE then s.pc else s.pc + 2#16, error := some f }) := by
  by_cases hpc : s.pc.toNat > 0xFFE
  · rw [step_of_fetchFault hpc] at h
    rcases raise_cases (.memoryRangeFault (offending s.pc.toNat)) (beginStep s) with ⟨h1, h2⟩ | ⟨h1, h2⟩
    · rw [h2] at h; cases h
    · rw [h2] at h; cases h
      exact .inr ⟨_, h1, by rw [if_pos hpc]; rfl⟩
  · have hpc' : s.pc.toNat ≤ 0xFFE := by omega
    rw [if_neg hpc]
    cases hd : decodeWord s.fetchWord with
    | none =>
      rw [step_of_illegal hpc' hd] at h
      rcases raise_cases (.unknownInstruction s.fetchWord) (beginStep s).advance with ⟨h1, h2⟩ | ⟨h1, h2⟩
      · rw [h2] at h; cases h
      · rw [h2] at h; cases h; exact .inr ⟨_, h1, rfl⟩
    | some i =>
      rw [step_of_decoded hpc' hd] at h
      rcases exec_spec i (beginStep s).advance with ⟨f, -, h2⟩ | ⟨h1, u, h2, h3⟩
      · rw [h2] at h
        rcases raise_cases f (beginStep s).advance with ⟨h1, h2⟩ | ⟨h1, h2⟩
        · rw [h2] at h; cases h
        · rw [h2] at h; cases h; exact .inr ⟨_, h1, rfl⟩
      · have h2' := h2
        rw [h2] at h; cases h
        exact .inl ⟨i, u, hpc', rfl, h1, h2', h3, rfl⟩

end Sys2Proof.Machine
end

