-- ==== Sys2Proof/Laws/Host.lean ====
section
/-! SUPPORT. The host's turns: a fair host's ticks keep coming, every host whose ticks keep coming is of that form, and what a
run without end does to the schedule (R12, R232). -/

namespace Sys2Proof.Machine

/-! ## The fair host -/

/-- A wait ends: after as many turns as it still has, a tick is owed. -/
theorem tickWait_ends (waits : Nat → Nat) (n : Nat) : tickWait waits (n + tickWait waits n) = 0 := by
  generalize hw : tickWait waits n = w
  induction w generalizing n with
  | zero => exact hw
  | succ w ih =>
    have h : tickWait waits (n + 1) = w := by rw [tickWait, hw]
    have := ih (n + 1) h
    rwa [Nat.add_assoc, Nat.add_comm 1 w] at this

/-- R232: a tick eventually comes, whatever the turns and the waits are. -/
theorem fairTurn_ticks_keep_coming (turns : Nat → HostTurn) (waits : Nat → Nat) (n : Nat) :
    ∃ m, n ≤ m ∧ 0 < (fairTurn turns waits m).ticks := by
  refine ⟨n + tickWait waits n, Nat.le_add_right _ _, ?_⟩
  simp only [fairTurn, tickWait_ends, if_pos]
  exact Nat.succ_pos _

/-- No fair host is left out: turns in which a tick always comes again are a fair host's, with the waits that lead from each
turn to its next tick. -/
theorem exists_fairTurn_eq (host : Nat → HostTurn) (fair : ∀ n, ∃ d, 0 < (host (n + d)).ticks) :
    ∃ turns waits, ∀ n, fairTurn turns waits n = host n := by
  classical
  let wait n := Nat.find (fair n)
  have hwait : ∀ n, tickWait wait n = wait n := by
    intro n
    induction n with
    | zero => rfl
    | succ n ih =>
      rw [tickWait, ih]
      cases hw : wait n with
      | zero => rfl
      | succ w =>
        have hspec := Nat.find_spec (fair n)
        have hmin : ∀ d < wait n, ¬0 < (host (n + d)).ticks := fun d => Nat.find_min (fair n)
        change 0 < (host (n + wait n)).ticks at hspec
        rw [hw] at hspec hmin
        change w = wait (n + 1)
        refine ((Nat.find_eq_iff (fair (n + 1))).2 ⟨?_, fun d hd => ?_⟩).symm
        · rwa [Nat.add_assoc, Nat.add_comm 1 w]
        · have := hmin (d + 1) (by omega)
          rwa [Nat.add_assoc, Nat.add_comm 1 d]
  refine ⟨fun n => { host n with ticks := (host n).ticks - if wait n = 0 then 1 else 0 }, wait, fun n => ?_⟩
  have hticks : (host n).ticks - (if wait n = 0 then 1 else 0) + (if wait n = 0 then 1 else 0) = (host n).ticks := by
    split
    · rename_i h0
      have hspec := Nat.find_spec (fair n)
      change 0 < (host (n + wait n)).ticks at hspec
      rw [h0] at hspec
      exact Nat.sub_add_cancel hspec
    · rfl
  simp only [fairTurn, hwait, hticks]

/-! ## The coming turn -/

@[simp] theorem fairTurn_keys (f : Nat → HostTurn) (w : Nat → Nat) (n : Nat) : (fairTurn f w n).keys = (f n).keys := rfl
@[simp] theorem fairTurn_keyEvent (f : Nat → HostTurn) (w : Nat → Nat) (n : Nat) :
    (fairTurn f w n).keyEvent = (f n).keyEvent := rfl
@[simp] theorem fairTurn_rnd (f : Nat → HostTurn) (w : Nat → Nat) (n : Nat) : (fairTurn f w n).rnd = (f n).rnd := rfl

@[simp] theorem hostTurn_cons (s : State) (h : HostTurn) (rest : List HostTurn) :
    ({ s with schedule := h :: rest } : State).hostTurn = h := rfl

/-- Where the schedule is at its end, the host is unconstrained but fair. -/
theorem hostTurn_of_schedule_nil {s : State} (e : s.schedule = []) :
    s.hostTurn = fairTurn Config.freeHostTurn Config.freeTickWait s.turn := by simp only [State.hostTurn, e]

/-! ## Runs -/

/-- Under the policy that goes on, every step goes on (R217). -/
theorem step_of_goOn {s : State} (h : s.onError = .goOn) : ∃ t, step s = .next t ∧ t.onError = .goOn := by
  have hraise : ∀ (f : Fault) (u : State), u.onError = .goOn →
      onNext endTurn (raise f u) = .next (endTurn { u with error := some f }) := by
    intro f u hu; rw [raise_goOn f hu]; rfl
  by_cases hpc : s.pc.toNat > 0xFFE
  · exact ⟨_, (step_of_fetchFault hpc).trans (hraise _ _ h), h⟩
  · have hpc' : s.pc.toNat ≤ 0xFFE := Nat.le_of_not_lt hpc
    cases hd : decodeWord s.fetchWord with
    | none => exact ⟨_, (step_of_illegal hpc' hd).trans (hraise _ _ h), h⟩
    | some i =>
      have hstep := step_of_decoded hpc' hd
      rcases exec_spec i (beginStep s).advance with ⟨f, -, hf⟩ | ⟨-, u, hu, hk⟩
      · rw [hf] at hstep; exact ⟨_, hstep.trans (hraise _ _ h), h⟩
      · rw [hu] at hstep; exact ⟨endTurn u, hstep, hk.onError.trans h⟩

/-- A run without end starts at every state under the policy that goes on. -/
theorem exists_run {s : State} (h : s.onError = .goOn) : ∃ r, IsRun r ∧ r 0 = s := by
  choose f hf hg using fun s : { s : State // s.onError = .goOn } => step_of_goOn s.2
  let next : { s : State // s.onError = .goOn } → { s : State // s.onError = .goOn } := fun s => ⟨f s, hg s⟩
  refine ⟨fun k => (next^[k] ⟨s, h⟩).1, fun k => ?_, rfl⟩
  simp only [Function.iterate_succ_apply']
  exact hf _

end Sys2Proof.Machine
end

