-- ==== Sys2Proof/Laws/PerInstr.lean ====
section
/-! SUPPORT. Statements for every instruction, one lemma per constructor. -/

namespace Sys2Proof

/-- The word of an instruction is covered by the instruction's own row of the opcode map, and that row is in the map
(R87, R96). -/
def Laws.EncodedWordIsCovered.Statement (i : Instr) : Prop :=
  rowOf i ∈ opcodeRows ∧ (rowOf i).covers (encodeWord i) = true

theorem Laws.EncodedWordIsCovered.cls : Statement (.cls) :=
  ⟨by simp only [rowOf]; decide, (covers_FFFF _ _ _).2 rfl⟩

theorem Laws.EncodedWordIsCovered.ret : Statement (.ret) :=
  ⟨by simp only [rowOf]; decide, (covers_FFFF _ _ _).2 rfl⟩

theorem Laws.EncodedWordIsCovered.jp (nnn : Addr12) : Statement (.jp nnn) :=
  ⟨by simp only [rowOf]; decide, (covers_F000 "JP" _ rfl).2 (fieldF_encodeA ..)⟩

theorem Laws.EncodedWordIsCovered.call (nnn : Addr12) : Statement (.call nnn) :=
  ⟨by simp only [rowOf]; decide, (covers_F000 "CALL" _ rfl).2 (fieldF_encodeA ..)⟩

theorem Laws.EncodedWordIsCovered.seImm (x : RegIx) (nn : Byte) : Statement (.seImm x nn) :=
  ⟨by simp only [rowOf]; decide, (covers_F000 "SE_IMM" _ rfl).2 (fieldF_encodeX ..)⟩

theorem Laws.EncodedWordIsCovered.sneImm (x : RegIx) (nn : Byte) : Statement (.sneImm x nn) :=
  ⟨by simp only [rowOf]; decide, (covers_F000 "SNE_IMM" _ rfl).2 (fieldF_encodeX ..)⟩

theorem Laws.EncodedWordIsCovered.seReg (x y : RegIx) : Statement (.seReg x y) :=
  ⟨by simp only [rowOf]; decide, (covers_F00F "SE_REG" _ rfl).2 ⟨fieldF_encodeXY .., fieldN_encodeXY ..⟩⟩

theorem Laws.EncodedWordIsCovered.ldImm (x : RegIx) (nn : Byte) : Statement (.ldImm x nn) :=
  ⟨by simp only [rowOf]; decide, (covers_F000 "LD_IMM" _ rfl).2 (fieldF_encodeX ..)⟩

theorem Laws.EncodedWordIsCovered.addImm (x : RegIx) (nn : Byte) : Statement (.addImm x nn) :=
  ⟨by simp only [rowOf]; decide, (covers_F000 "ADD_IMM" _ rfl).2 (fieldF_encodeX ..)⟩

theorem Laws.EncodedWordIsCovered.ldReg (x y : RegIx) : Statement (.ldReg x y) :=
  ⟨by simp only [rowOf]; decide, (covers_F00F "LD_REG" _ rfl).2 ⟨fieldF_encodeXY .., fieldN_encodeXY ..⟩⟩

theorem Laws.EncodedWordIsCovered.orReg (x y : RegIx) : Statement (.orReg x y) :=
  ⟨by simp only [rowOf]; decide, (covers_F00F "OR" _ rfl).2 ⟨fieldF_encodeXY .., fieldN_encodeXY ..⟩⟩

theorem Laws.EncodedWordIsCovered.andReg (x y : RegIx) : Statement (.andReg x y) :=
  ⟨by simp only [rowOf]; decide, (covers_F00F "AND" _ rfl).2 ⟨fieldF_encodeXY .., fieldN_encodeXY ..⟩⟩

theorem Laws.EncodedWordIsCovered.xorReg (x y : RegIx) : Statement (.xorReg x y) :=
  ⟨by simp only [rowOf]; decide, (covers_F00F "XOR" _ rfl).2 ⟨fieldF_encodeXY .., fieldN_encodeXY ..⟩⟩

theorem Laws.EncodedWordIsCovered.addReg (x y : RegIx) : Statement (.addReg x y) :=
  ⟨by simp only [rowOf]; decide, (covers_F00F "ADD_REG" _ rfl).2 ⟨fieldF_encodeXY .., fieldN_encodeXY ..⟩⟩

theorem Laws.EncodedWordIsCovered.sub (x y : RegIx) : Statement (.sub x y) :=
  ⟨by simp only [rowOf]; decide, (covers_F00F "SUB" _ rfl).2 ⟨fieldF_encodeXY .., fieldN_encodeXY ..⟩⟩

theorem Laws.EncodedWordIsCovered.shr (x y : RegIx) : Statement (.shr x y) :=
  ⟨by simp only [rowOf]; decide, (covers_F00F "SHR" _ rfl).2 ⟨fieldF_encodeXY .., fieldN_encodeXY ..⟩⟩

theorem Laws.EncodedWordIsCovered.subn (x y : RegIx) : Statement (.subn x y) :=
  ⟨by simp only [rowOf]; decide, (covers_F00F "SUBN" _ rfl).2 ⟨fieldF_encodeXY .., fieldN_encodeXY ..⟩⟩

theorem Laws.EncodedWordIsCovered.shl (x y : RegIx) : Statement (.shl x y) :=
  ⟨by simp only [rowOf]; decide, (covers_F00F "SHL" _ rfl).2 ⟨fieldF_encodeXY .., fieldN_encodeXY ..⟩⟩

theorem Laws.EncodedWordIsCovered.sneReg (x y : RegIx) : Statement (.sneReg x y) :=
  ⟨by simp only [rowOf]; decide, (covers_F00F "SNE_REG" _ rfl).2 ⟨fieldF_encodeXY .., fieldN_encodeXY ..⟩⟩

theorem Laws.EncodedWordIsCovered.ldI (nnn : Addr12) : Statement (.ldI nnn) :=
  ⟨by simp only [rowOf]; decide, (covers_F000 "LD_I" _ rfl).2 (fieldF_encodeA ..)⟩

theorem Laws.EncodedWordIsCovered.jpV0 (nnn : Addr12) : Statement (.jpV0 nnn) :=
  ⟨by simp only [rowOf]; decide, (covers_F000 "JP_V0" _ rfl).2 (fieldF_encodeA ..)⟩

theorem Laws.EncodedWordIsCovered.rnd (x : RegIx) (nn : Byte) : Statement (.rnd x nn) :=
  ⟨by simp only [rowOf]; decide, (covers_F000 "RND" _ rfl).2 (fieldF_encodeX ..)⟩

theorem Laws.EncodedWordIsCovered.drw (x y : RegIx) (n : Fin 16) : Statement (.drw x y n) :=
  ⟨by simp only [rowOf]; decide, (covers_F000 "DRW" _ rfl).2 (fieldF_encodeXY ..)⟩

theorem Laws.EncodedWordIsCovered.skp (x : RegIx) : Statement (.skp x) :=
  ⟨by simp only [rowOf]; decide, (covers_F0FF "SKP" _ rfl).2 ⟨fieldF_encodeX .., fieldNN_encodeX ..⟩⟩

theorem Laws.EncodedWordIsCovered.sknp (x : RegIx) : Statement (.sknp x) :=
  ⟨by simp only [rowOf]; decide, (covers_F0FF "SKNP" _ rfl).2 ⟨fieldF_encodeX .., fieldNN_encodeX ..⟩⟩

theorem Laws.EncodedWordIsCovered.ldVxDt (x : RegIx) : Statement (.ldVxDt x) :=
  ⟨by simp only [rowOf]; decide, (covers_F0FF "LD_VX_DT" _ rfl).2 ⟨fieldF_encodeX .., fieldNN_encodeX ..⟩⟩

theorem Laws.EncodedWordIsCovered.ldVxK (x : RegIx) : Statement (.ldVxK x) :=
  ⟨by simp only [rowOf]; decide, (covers_F0FF "LD_VX_K" _ rfl).2 ⟨fieldF_encodeX .., fieldNN_encodeX ..⟩⟩

theorem Laws.EncodedWordIsCovered.ldDtVx (x : RegIx) : Statement (.ldDtVx x) :=
  ⟨by simp only [rowOf]; decide, (covers_F0FF "LD_DT_VX" _ rfl).2 ⟨fieldF_encodeX .., fieldNN_encodeX ..⟩⟩

theorem Laws.EncodedWordIsCovered.ldStVx (x : RegIx) : Statement (.ldStVx x) :=
  ⟨by simp only [rowOf]; decide, (covers_F0FF "LD_ST_VX" _ rfl).2 ⟨fieldF_encodeX .., fieldNN_encodeX ..⟩⟩

theorem Laws.EncodedWordIsCovered.addI (x : RegIx) : Statement (.addI x) :=
  ⟨by simp only [rowOf]; decide, (covers_F0FF "ADD_I" _ rfl).2 ⟨fieldF_encodeX .., fieldNN_encodeX ..⟩⟩

theorem Laws.EncodedWordIsCovered.ldF (x : RegIx) : Statement (.ldF x) :=
  ⟨by simp only [rowOf]; decide, (covers_F0FF "LD_F" _ rfl).2 ⟨fieldF_encodeX .., fieldNN_encodeX ..⟩⟩

theorem Laws.EncodedWordIsCovered.ldB (x : RegIx) : Statement (.ldB x) :=
  ⟨by simp only [rowOf]; decide, (covers_F0FF "LD_B" _ rfl).2 ⟨fieldF_encodeX .., fieldNN_encodeX ..⟩⟩

theorem Laws.EncodedWordIsCovered.stRegs (x : RegIx) : Statement (.stRegs x) :=
  ⟨by simp only [rowOf]; decide, (covers_F0FF "ST_REGS" _ rfl).2 ⟨fieldF_encodeX .., fieldNN_encodeX ..⟩⟩

theorem Laws.EncodedWordIsCovered.ldRegs (x : RegIx) : Statement (.ldRegs x) :=
  ⟨by simp only [rowOf]; decide, (covers_F0FF "LD_REGS" _ rfl).2 ⟨fieldF_encodeX .., fieldNN_encodeX ..⟩⟩

end Sys2Proof
end

