-- ==== Sys2Proof/Tests/Slice0.lean ====
section
/-! SUPPORT. The model's own tests: terms the checks refuse, one written-out word for each instruction, single steps with
the results the spec's test vectors give (file 95; the number of its section stands with each group), and for each
statement with hypotheses a concrete case that meets them. -/

namespace Sys2Proof.Tests
open Sys2Proof Sys2Proof.Machine

/-! ## WellFormed: an ill-formed term for each check, and terms that pass -/

theorem test_no_columns_refused : ¬({ defaultParams with displayW := 0 } : Params).WellFormed := by decide
theorem test_no_rows_refused : ¬({ defaultParams with displayH := 0 } : Params).WellFormed := by decide
theorem test_short_font_refused : ¬({ defaultParams with font := defaultFontLow } : Params).WellFormed := by decide
theorem test_long_memInit_refused (b : Byte) :
    ¬({ defaultParams with memInit := List.replicate 4097 b } : Params).WellFormed := by
  unfold Params.WellFormed memorySize; rw [List.length_replicate]; omega
theorem test_defaults_pass : defaultParams.WellFormed := by decide
theorem test_long_image_refused (b : Byte) : ¬ImageWellFormed (List.replicate 3585 b) := by
  unfold ImageWellFormed maxImage; rw [List.length_replicate]; omega
theorem test_longest_image_passes (b : Byte) : ImageWellFormed (List.replicate 3584 b) :=
  Nat.le_of_eq List.length_replicate

/-! ## Decoding: each constructor by a word written out from the encoding column of R87 -/

theorem test_decode_family0 :
    decodeWord 0b0000_0000_1110_0000#16 = some .cls ∧ decodeWord 0b0000_0000_1110_1110#16 = some .ret := by decide
theorem test_decode_addresses :
    decodeWord 0b0001_1111_0000_1010#16 = some (.jp 0xF0A#12) ∧
    decodeWord 0b0010_0011_0000_0001#16 = some (.call 0x301#12) ∧
    decodeWord 0b1010_0010_0000_0101#16 = some (.ldI 0x205#12) ∧
    decodeWord 0b1011_1000_0100_0001#16 = some (.jpV0 0x841#12) := by decide
theorem test_decode_immediates :
    decodeWord 0b0011_0011_0010_1010#16 = some (.seImm 3 0x2A#8) ∧
    decodeWord 0b0100_1100_0101_0011#16 = some (.sneImm 12 0x53#8) ∧
    decodeWord 0b0110_1010_0000_0101#16 = some (.ldImm 10 0x05#8) ∧
    decodeWord 0b0111_0101_1111_1110#16 = some (.addImm 5 0xFE#8) ∧
    decodeWord 0b1100_0001_1000_0111#16 = some (.rnd 1 0x87#8) := by decide
theorem test_decode_register_skips :
    decodeWord 0b0101_0001_0010_0000#16 = some (.seReg 1 2) ∧
    decodeWord 0b1001_1110_0111_0000#16 = some (.sneReg 14 7) := by decide
theorem test_decode_logic :
    decodeWord 0b1000_0001_0010_0000#16 = some (.ldReg 1 2) ∧
    decodeWord 0b1000_0011_0100_0001#16 = some (.orReg 3 4) ∧
    decodeWord 0b1000_0101_0110_0010#16 = some (.andReg 5 6) ∧
    decodeWord 0b1000_0111_1000_0011#16 = some (.xorReg 7 8) := by decide
theorem test_decode_arithmetic :
    decodeWord 0b1000_1010_1011_0100#16 = some (.addReg 10 11) ∧
    decodeWord 0b1000_1001_0110_0101#16 = some (.sub 9 6) ∧
    decodeWord 0b1000_0000_1010_0110#16 = some (.shr 0 10) ∧
    decodeWord 0b1000_0110_1001_0111#16 = some (.subn 6 9) ∧
    decodeWord 0b1000_1111_0001_1110#16 = some (.shl 15 1) := by decide
theorem test_decode_draw : decodeWord 0b1101_0001_0010_1111#16 = some (.drw 1 2 15) := by decide
theorem test_decode_keys :
    decodeWord 0b1110_0001_1001_1110#16 = some (.skp 1) ∧ decodeWord 0b1110_0010_1010_0001#16 = some (.sknp 2) ∧
    decodeWord 0b1111_0011_0000_1010#16 = some (.ldVxK 3) := by decide
theorem test_decode_timers :
    decodeWord 0b1111_0100_0000_0111#16 = some (.ldVxDt 4) ∧ decodeWord 0b1111_0101_0001_0101#16 = some (.ldDtVx 5) ∧
    decodeWord 0b1111_0110_0001_1000#16 = some (.ldStVx 6) := by decide
theorem test_decode_index :
    decodeWord 0b1111_0111_0001_1110#16 = some (.addI 7) ∧ decodeWord 0b1111_1000_0010_1001#16 = some (.ldF 8) ∧
    decodeWord 0b1111_1001_0011_0011#16 = some (.ldB 9) ∧ decodeWord 0b1111_1010_0101_0101#16 = some (.stRegs 10) ∧
    decodeWord 0b1111_1011_0110_0101#16 = some (.ldRegs 11) := by decide

/-- Section 2.1: illegal words. -/
theorem test_illegal_words :
    ([0x0000#16, 0x00E1#16, 0x00EF#16, 0x00FE#16, 0x0123#16, 0x5121#16, 0x512F#16, 0x8008#16, 0x800D#16, 0x800F#16,
      0x9121#16, 0xE000#16, 0xE09F#16, 0xE0A2#16, 0xF000#16, 0xF01F#16, 0xF056#16, 0xF075#16, 0xF085#16, 0xFFFF#16].all
      (fun w => (decodeWord w).isNone)) = true := by decide
theorem test_decode_rejects_by_name :
    decode [0x51#8, 0x21#8, 0x00#8] = .error (.illegalWord 0x5121#16) ∧ decode [0x51#8] = .error .truncated := ⟨rfl, rfl⟩
/-- Section 2.1: the byte at the lower address is the high byte of the word. -/
theorem test_byte_order : encode (.drw 1 2 15) = [0xD1#8, 0x2F#8] := by decide

/-! ## Single steps -/

/-- A host that presses no key, draws 0 and makes no tick. -/
def quiet : HostTurn := { keys := 0x0000#16, keyEvent := none, rnd := 0x00#8, ticks := 0 }

/-- Reset with some registers set, the index register, and a quiet host: the start state of the vectors. -/
def start (index : Word) (rs : List (RegIx × Byte)) : State :=
  rs.foldl (fun s r => s.setReg r.1 r.2) { State.reset with index := index, schedule := [quiet] }

/-- The state after one step at the word `w`, seen through `f`. -/
def after {α : Type} (f : State → α) (w : Nat) (s : State) : Option α :=
  match step (s.withFetchWord 16 w) with
  | .next t => some (f t)
  | _ => none

/-- The error that ended the one step at the word `w`. -/
def errorOf (w : Nat) (s : State) : Option Fault :=
  match step (s.withFetchWord 16 w) with
  | .fault f => some f
  | _ => none

/-- Two registers. -/
def two (x y : RegIx) (t : State) : Byte × Byte := (t.reg x, t.reg y)

/-! ### Section 2.2 -/

theorem test_ldImm_flag_register : after (two 15 0) 0x6FFF (start 0 []) = some (0xFF#8, 0x00#8) := by decide
theorem test_addImm_wraps_without_flag :
    after (two 0 15) 0x7001 (start 0 [(0, 0xFF#8), (15, 0x5A#8)]) = some (0x00#8, 0x5A#8) := by decide
theorem test_ldReg : after (two 15 1) 0x8F10 (start 0 [(1, 0x2A#8), (15, 0x01#8)]) = some (0x2A#8, 0x2A#8) := by decide
theorem test_or :
    after (two 0 15) 0x8011 (start 0 [(0, 0xF0#8), (1, 0x0F#8), (15, 0x77#8)]) = some (0xFF#8, 0x77#8) := by decide
theorem test_and :
    after (two 0 15) 0x8012 (start 0 [(0, 0xF0#8), (1, 0x3C#8), (15, 0x77#8)]) = some (0x30#8, 0x77#8) := by decide
theorem test_xor :
    after (two 0 15) 0x8013 (start 0 [(0, 0xF0#8), (1, 0x3C#8), (15, 0x77#8)]) = some (0xCC#8, 0x77#8) := by decide
theorem test_add_into_flag : after (two 15 1) 0x8F14 (start 0 [(15, 0x03#8), (1, 0x04#8)]) = some (0x00#8, 0x04#8) := by
  decide
theorem test_add_from_flag : after (two 0 15) 0x80F4 (start 0 [(0, 0xFF#8), (15, 0x01#8)]) = some (0x00#8, 0x01#8) := by
  decide
theorem test_sub_equal : after (two 0 15) 0x8015 (start 0 [(0, 0x05#8), (1, 0x05#8)]) = some (0x00#8, 0x01#8) := by decide
theorem test_sub_from_flag : after (two 0 15) 0x80F5 (start 0 [(0, 0x05#8), (15, 0x07#8)]) = some (0xFE#8, 0x00#8) := by
  decide
theorem test_shr_ignores_y :
    after (two 0 15) 0x80A6 (start 0 [(0, 0x04#8), (10, 0xFF#8), (15, 0x01#8)]) = some (0x02#8, 0x00#8) := by decide
theorem test_shr_flag_register : after (two 15 0) 0x8F06 (start 0 [(15, 0x03#8)]) = some (0x01#8, 0x00#8) := by decide
theorem test_subn : after (two 0 15) 0x8017 (start 0 [(0, 0x05#8), (1, 0x07#8)]) = some (0x02#8, 0x01#8) := by decide
theorem test_subn_flag_register : after (two 15 1) 0x8F17 (start 0 [(15, 0x07#8), (1, 0x05#8)]) = some (0x00#8, 0x05#8) := by
  decide
theorem test_shl_ignores_y :
    after (two 0 15) 0x80AE (start 0 [(0, 0x01#8), (10, 0xFF#8)]) = some (0x02#8, 0x00#8) := by decide
theorem test_shl_flag_register : after (two 15 0) 0x8F0E (start 0 [(15, 0x80#8)]) = some (0x01#8, 0x00#8) := by decide

/-! ### Section 2.3 -/

theorem test_seImm : after State.pc 0x332A (start 0 [(3, 0x2A#8)]) = some 0x204#16 ∧
    after State.pc 0x332B (start 0 [(3, 0x2A#8)]) = some 0x202#16 := by decide
theorem test_sneImm : after State.pc 0x432A (start 0 [(3, 0x2A#8)]) = some 0x202#16 ∧
    after State.pc 0x432B (start 0 [(3, 0x2A#8)]) = some 0x204#16 := by decide
theorem test_seReg : after State.pc 0x5120 (start 0 [(1, 0x07#8), (2, 0x07#8)]) = some 0x204#16 ∧
    after State.pc 0x5120 (start 0 [(1, 0x07#8), (2, 0x08#8)]) = some 0x202#16 := by decide
theorem test_sneReg : after State.pc 0x9120 (start 0 [(1, 0x07#8), (2, 0x08#8)]) = some 0x204#16 ∧
    after State.pc 0x9110 (start 0 [(1, 0x07#8)]) = some 0x202#16 := by decide

/-! ### Section 2.4 -/

/-- A start state with `n` occupied slots that all hold `w`. -/
def nested (n : Fin 17) (w : Word) : State := { start 0 [] with sp := n, stack := Vector.replicate 16 w }

theorem test_jp : after State.pc 0x1FFF (start 0 []) = some 0x0FFF#16 := by decide
theorem test_call_sixteenth :
    after (fun t => (t.stack[15], t.sp, t.pc)) 0x2300 (nested 15 0#16) = some (0x0202#16, 16, 0x0300#16) := by decide
theorem test_call_overflow : errorOf 0x2300 (nested 16 0x0111#16) = some (.stackFault .overflow) := by decide
theorem test_ret :
    after (fun t => (t.stack[0], t.sp, t.pc)) 0x00EE (nested 1 0x0302#16) = some (0x0302#16, 0, 0x0302#16) := by decide
theorem test_ret_underflow : errorOf 0x00EE (start 0 []) = some (.stackFault .underflow) := by decide
theorem test_jpV0_top : after State.pc 0xBFFF (start 0 [(0, 0xFF#8)]) = some 0x10FE#16 := by decide
theorem test_jpV0_reads_V0 : after State.pc 0xBA00 (start 0 [(0, 0x02#8), (10, 0x10#8)]) = some 0x0A02#16 := by decide

/-! ### Section 2.5 -/

/-- The start state with another host turn. -/
def withTurn (h : HostTurn) (s : State) : State := { s with schedule := [h] }

theorem test_rnd : after (two 3 0) 0xC30F (withTurn { quiet with rnd := 0xA7#8 } (start 0 [])) = some (0x07#8, 0x00#8) := by
  decide
theorem test_rnd_flag_register :
    after (two 15 0) 0xCF0F (withTurn { quiet with rnd := 0xFF#8 } (start 0 [])) = some (0x0F#8, 0x00#8) := by decide

/-! ### Section 2.6 -/

/-- A start state with bytes at 0x300, `I` there. -/
def sprite (bs : List Byte) (rs : List (RegIx × Byte)) : State := (start 0x300#16 rs).storeBytes 0x300 bs

theorem test_cls :
    after (fun t => (t.disp, t.commands, t.reg 0, t.reg 15)) 0x00E0
      { start 0 [(0, 0x07#8), (15, 0x01#8)] with disp := [4 * 64 + 3] } =
      some ([], [.clear, .present], 0x07#8, 0x01#8) := by decide
theorem test_drw_collision_and_commands :
    after (fun t => (t.disp, t.reg 15, t.commands)) 0xD011 { sprite [0xC0#8] [] with disp := [0] } =
      some ([1], 0x01#8, [.clearPixel 0 0, .setPixel 1 0, .present]) := by decide
theorem test_drw_wraps_and_reads_old_flag :
    after (fun t => (t.commands, t.reg 15)) 0xDF12 (sprite [0x80#8, 0x81#8] [(15, 0x3F#8), (1, 0x1F#8)]) =
      some ([.setPixel 63 31, .setPixel 63 0, .setPixel 6 0, .present], 0x00#8) := by decide

/-! ### Section 2.7 -/

theorem test_skp :
    after State.pc 0xE29E (withTurn { quiet with keys := 0x0020#16 } (start 0 [(2, 0x15#8)])) = some 0x204#16 ∧
    after State.pc 0xE29E (start 0 [(2, 0x05#8)]) = some 0x202#16 := by decide
theorem test_sknp :
    after State.pc 0xE2A1 (withTurn { quiet with keys := 0xFFDF#16 } (start 0 [(2, 0xF5#8)])) = some 0x204#16 ∧
    after State.pc 0xE2A1 (withTurn { quiet with keys := 0x0020#16 } (start 0 [(2, 0x05#8)])) = some 0x202#16 := by decide
theorem test_key_wait_entry :
    after (fun t => (t.awaiting, t.pc, t.reg 3)) 0xF30A (withTurn { quiet with keyEvent := some 3 } (start 0 [])) =
      some (true, 0x200#16, 0x00#8) := by decide
theorem test_key_wait_delivery :
    after (fun t => (t.awaiting, t.pc, t.reg 15)) 0xFF0A
      { withTurn { quiet with keyEvent := some 11 } (start 0 []) with awaiting := true } =
      some (false, 0x202#16, 0x0B#8) := by decide

/-! ### Section 2.8 -/

theorem test_ldVxDt : after (fun t => (t.reg 4, t.dt)) 0xF407 { start 0 [] with dt := 0x3C#8 } = some (0x3C#8, 0x3C#8) := by
  decide
theorem test_ldDtVx : after State.dt 0xF415 (start 0 [(4, 0x3C#8)]) = some 0x3C#8 := by decide
theorem test_ldStVx : after (fun t => (t.st, soundActive t)) 0xF418 (start 0 [(4, 0x02#8)]) = some (0x02#8, true) := by decide
theorem test_tick :
    (tickTimers { start 0 [] with dt := 0xFF#8, st := 0x01#8 }).dt = 0xFE#8 ∧
    (tickTimers { start 0 [] with dt := 0x00#8, st := 0x01#8 }).st = 0x00#8 ∧ (tickTimers (start 0 [])).dt = 0x00#8 := by
  decide
/-- The ticks of a turn fall after its step: the read of `DT` sees the value before them. -/
theorem test_ticks_follow_the_step :
    after (fun t => (t.reg 4, t.dt)) 0xF407 { withTurn { quiet with ticks := 3 } (start 0 []) with dt := 0x05#8 } =
      some (0x05#8, 0x02#8) := by decide

/-! ### Section 2.9 -/

theorem test_ldI : after State.index 0xAFFF (start 0xFFFF#16 []) = some 0x0FFF#16 := by decide
theorem test_addI_wraps :
    after (fun t => (t.index, t.reg 15)) 0xF11E (start 0xFFFF#16 [(1, 0x01#8)]) = some (0x0000#16, 0x01#8) := by decide
theorem test_addI_old_flag :
    after (fun t => (t.index, t.reg 15)) 0xFF1E (start 0x0FFE#16 [(15, 0x02#8)]) = some (0x1000#16, 0x01#8) := by decide
theorem test_ldF : after State.index 0xF229 (start 0 [(2, 0x1A#8)]) = some 0x0082#16 ∧
    after State.index 0xF229 (start 0 [(2, 0xFF#8)]) = some 0x009B#16 := by decide
theorem test_ldB :
    after (fun t => t.bytesAtIndex 3) 0xF533 (start 0x0FFD#16 [(5, 0xFF#8)]) = some [0x02#8, 0x05#8, 0x05#8] := by decide
theorem test_ldB_past_the_end :
    errorOf 0xF533 (start 0x0FFE#16 [(5, 0xFF#8)]) = some (.memoryRangeFault 0x1000) := by decide
theorem test_stRegs :
    after (fun t => (t.bytesAtIndex 4, t.index)) 0xF255
      (sprite [0xEE#8, 0xEE#8, 0xEE#8, 0xEE#8] [(0, 0x10#8), (1, 0x11#8), (2, 0x12#8), (3, 0x13#8)]) =
      some ([0x10#8, 0x11#8, 0x12#8, 0xEE#8], 0x300#16) := by decide
theorem test_ldRegs :
    after (fun t => (two 0 1 t, two 2 3 t)) 0xF265 (sprite [0x01#8, 0x05#8, 0x06#8, 0x07#8] [(3, 0x99#8)]) =
      some ((0x01#8, 0x05#8), (0x06#8, 0x99#8)) := by decide
theorem test_ldRegs_past_the_end : errorOf 0xF165 (start 0x0FFF#16 []) = some (.memoryRangeFault 0x1000) := by decide

/-! ### Section 2.10, with the policy that goes on -/

theorem test_fetch_at_the_top :
    after (fun t => (t.reg 0, t.pc)) 0x6007 { start 0 [] with pc := 0x0FFE#16 } = some (0x07#8, 0x1000#16) := by decide
theorem test_fetch_past_the_end :
    step { start 0 [] with pc := 0x10FE#16 } = .fault (.memoryRangeFault 0x10FE) := rfl
theorem test_illegal_word_goes_on :
    after (fun t => (t.pc, t.error)) 0xFFFF { start 0 [] with onError := .goOn } =
      some (0x0202#16, some (.unknownInstruction 0xFFFF#16)) := by decide

/-! ## Cases that meet the hypotheses of the statements

Each is named after the statement it belongs to. -/

/-- A start state with a word at `pc`. -/
def at_ (pc : Word) (w : Nat) : State := ({ start 0 [] with pc := pc } : State).withFetchWord 16 w

/-- Its variant under the policy that goes on. -/
def at_goOn (pc : Word) (w : Nat) : State := { at_ pc w with onError := .goOn }

theorem met_EncodeOfDecodedWordIsTheWord : decodeWord 0x80A6#16 = some (.shr 0 10) := by decide
theorem met_DecoderFollowsTheOpcodeMap_legal :
    ∃ r ∈ opcodeRows, r.covers 0x800E#16 = true ∧ decodeWord 0x800E#16 = some (.shl 0 0) :=
  ⟨⟨"SHL", 0x800E#16, 0xF00F#16⟩, by decide, by decide, by decide⟩
theorem met_DecoderFollowsTheOpcodeMap_illegal :
    decodeWord 0x800D#16 = none ∧ ∀ r ∈ opcodeRows, r.covers 0x800D#16 = false := by decide
theorem met_OpcodeRowsAreDisjoint : ∃ r ∈ opcodeRows, r.covers 0x00E0#16 = true :=
  ⟨⟨"CLS", 0x00E0#16, 0xFFFF#16⟩, by decide, by decide⟩
theorem met_StepRunsTheDecodedInstruction :
    (at_ 0x0FFE#16 0x6007).pc.toNat ≤ 0xFFE ∧
    decodeWord ((at_ 0x0FFE#16 0x6007).byte 0xFFE ++ (at_ 0x0FFE#16 0x6007).byte 0xFFF) = some (.ldImm 0 0x07#8) := by
  decide
theorem met_StepReturnsExactlyTheErrorDue_halt :
    ({ start 0 [] with pc := 0x0FFF#16 } : State).errorDue = some (.memoryRangeFault 0x1000) ∧
    (at_ 0x0200#16 0x00EE).errorDue = some (.stackFault .underflow) ∧
    (at_ 0x0200#16 0x00EE).onError = .halt := by decide
theorem met_StepReturnsExactlyTheErrorDue_goOn :
    (at_goOn 0x0FFE#16 0xFFFF).errorDue = some (.unknownInstruction 0xFFFF#16) ∧
    (at_goOn 0x0FFE#16 0xFFFF).onError = .goOn := by decide
theorem met_StepReturnsExactlyTheErrorDue_none : (at_ 0x0FFE#16 0x6007).errorDue = none := by decide
theorem met_ErrorsLeaveOnlyTheAdvancedPc_fetch :
    ∃ t, step { start 0 [] with pc := 0x0FFF#16, onError := .goOn } = .next t ∧ t.error = some (.memoryRangeFault 0x1000) ∧
      t.pc = 0x0FFF#16 := ⟨_, rfl, by decide, by decide⟩
theorem met_ErrorsLeaveOnlyTheAdvancedPc_word :
    ∃ t, step (at_goOn 0x0FFE#16 0xFFFF) = .next t ∧ t.error = some (.unknownInstruction 0xFFFF#16) ∧ t.pc = 0x1000#16 :=
  ⟨_, rfl, by decide, by decide⟩
theorem met_StoredWordIsTheNextOneRun : decodeTableWord 16 0xF265 = some (.ldRegs 2) := by decide
theorem met_IndexedAccessPastTheEndIsAnError :
    ∀ s ∈ [start 0x0FFF#16 [], { start 0x0FFF#16 [] with onError := .goOn }], 0 < 2 ∧ s.index.toNat + 2 - 1 > 0xFFF ∧
      s.index.toNat + 3 - 1 > 0xFFF ∧ s.index.toNat + ((1 : RegIx).val + 1) - 1 > 0xFFF := by decide
theorem met_FetchSeesStoredRegisters :
    (14 : Nat) + 1 < 16 ∧ 14 + 1 ≤ (15 : RegIx).val ∧ (start 0x0FF0#16 []).index.toNat + (15 : RegIx).val ≤ 0xFFF := by
  decide
theorem met_OnlyBcdAndStoreWriteMemory :
    (∃ t, exec (.ldB 0) (start 0x0FFD#16 [(0, 0xFF#8)]) = .next t ∧ t.mem ≠ (start 0x0FFD#16 [(0, 0xFF#8)]).mem) ∧
    ∃ t, exec (.stRegs 0) (start 0x0FFF#16 [(0, 0xFF#8)]) = .next t ∧ t.mem ≠ (start 0x0FFF#16 [(0, 0xFF#8)]).mem :=
  ⟨⟨_, rfl, by decide⟩, _, rfl, by decide⟩
theorem met_CopyAndLogicWriteVx : (Instr.orReg 0 1 = .orReg 0 1 ∧ or = or) ∧
    (Instr.ldReg 15 1 = .ldReg 15 1 ∧ (fun _ b : Bool => b) = fun _ b => b) := ⟨⟨rfl, rfl⟩, rfl, rfl⟩
theorem met_RegistersChangeOnlyByTheirWriters :
    (∃ t, exec (.addReg 0 1) (start 0 [(0, 0xFF#8), (1, 0x02#8)]) = .next t ∧
      t.reg 15 ≠ (start 0 [(0, 0xFF#8), (1, 0x02#8)]).reg 15) ∧
    ∃ t, exec (.ldRegs 2) (sprite [0x01#8, 0x05#8, 0x06#8] []) = .next t ∧
      t.reg 2 ≠ (sprite [0x01#8, 0x05#8, 0x06#8] []).reg 2 := ⟨⟨_, rfl, by decide⟩, _, rfl, by decide⟩
theorem met_RegisterSkipsMovePcByTwoOrNothing :
    (True ↔ (start 0 [(3, 0x2A#8)]).reg 3 = 0x2A#8) ∧ (False ↔ (start 0 [(3, 0x2A#8)]).reg 3 ≠ 0x2A#8) ∧
    (True ↔ (start 0 []).reg 1 = (start 0 []).reg 1) ∧ (True ↔ (start 0 [(1, 0x07#8)]).reg 1 ≠ (start 0 [(1, 0x07#8)]).reg 2) := by
  decide
theorem met_CallPushesTheReturnAddress :
    (nested 15 0#16).sp.val < 16 ∧ (nested 16 0#16).sp.val = 16 ∧ (nested 16 0#16).onError = .halt ∧
    ({ nested 16 0#16 with onError := .goOn } : State).sp.val = 16 := by decide
theorem met_ReturnPopsTheReturnAddress :
    (nested 1 0#16).sp.val = (0 : Fin 16).val + 1 ∧ (nested 16 0#16).sp.val = (15 : Fin 16).val + 1 ∧
    (nested 0 0#16).sp.val = 0 ∧ (nested 0 0#16).onError = .halt ∧
    ({ nested 0 0#16 with onError := .goOn } : State).sp.val = 0 := by decide
/-- S6: `2204` at 0x200 and `00EE` at 0x204. -/
def callAndReturn : State := (at_ 0x0200#16 0x2204).storeBytes 0x204 [0x00#8, 0xEE#8]
theorem met_CallThenReturnComesBack :
    callAndReturn.pc.toNat ≤ 0xFFE ∧ decodeWord callAndReturn.fetchWord = some (.call 0x204#12) ∧
    callAndReturn.sp.val < 16 ∧ (0x204#12).toNat ≤ 0xFFE ∧
    decodeWord (callAndReturn.byte 0x204 ++ callAndReturn.byte (0x204 + 1)) = some .ret := by decide
theorem met_OnlyCallAndReturnTouchTheStack :
    (∃ t, exec (.call 0x300#12) (nested 15 0#16) = .next t ∧ t.stack ≠ (nested 15 0#16).stack) ∧
    ∃ t, exec .ret (nested 1 0#16) = .next t ∧ t.sp ≠ (nested 1 0#16).sp := ⟨⟨_, rfl, by decide⟩, _, rfl, by decide⟩
theorem met_RandomReachesExactlyTheSubsets : 0x05#8 &&& 0x0F#8 = 0x05#8 ∧ 0x0F#8 &&& 0x0F#8 = 0x0F#8 := by decide
theorem met_DrawTogglesTheSpriteCells :
    (0 : Fin 16).val = 0 ∧ (start 0x0FFF#16 []).index.toNat + (1 : Fin 16).val - 1 ≤ 0xFFF := by decide
theorem met_DrawFlagsCollisionsAndEmitsCommands :
    (start 0x0FF1#16 []).index.toNat + (15 : Fin 16).val - 1 ≤ 0xFFF ∧ 8 ≤ (start 0x0FF1#16 []).params.displayW ∧
    15 ≤ ({ start 0 [] with params := { defaultParams with displayW := 8, displayH := 15 } } : State).params.displayH := by
  decide
/-- A sprite at the top of memory whose column stands in VF, re-established before the second draw. -/
def drawnFromFlag : State := (start 0x0FFF#16 [(15, 0x05#8)]).storeBytes 0xFFF [0x81#8]
theorem met_DrawTwiceRestoresTheDisplay :
    drawnFromFlag.index.toNat + (1 : Fin 16).val - 1 ≤ 0xFFF ∧ 8 ≤ drawnFromFlag.params.displayW ∧
    15 ≤ drawnFromFlag.params.displayH ∧
    ∃ t, exec (.drw 15 0 1) drawnFromFlag = .next t ∧ (t.setReg 15 0x05#8).params = t.params ∧
      (t.setReg 15 0x05#8).disp = t.disp ∧ (t.setReg 15 0x05#8).index = drawnFromFlag.index ∧
      (∀ j < (1 : Fin 16).val, (t.setReg 15 0x05#8).byte (0xFFF + j) = drawnFromFlag.byte (0xFFF + j)) ∧
      (t.setReg 15 0x05#8).reg 15 = drawnFromFlag.reg 15 ∧ (t.setReg 15 0x05#8).reg 0 = drawnFromFlag.reg 0 :=
  ⟨by decide, by decide, by decide, _, rfl, rfl, rfl, rfl, fun _ _ => rfl, by decide, by decide⟩
theorem met_OnlyDisplayInstructionsTouchTheDisplay :
    (∃ t, exec .cls (start 0 []) = .next t ∧ t.commands ≠ (start 0 []).commands) ∧
    ∃ t, exec (.drw 0 0 1) (sprite [0x80#8] []) = .next t ∧ t.disp ≠ (sprite [0x80#8] []).disp :=
  ⟨⟨_, rfl, by decide⟩, _, rfl, by decide⟩
/-- A start state in which key 5 alone is down. -/
def fiveDown (v : Byte) : State := withTurn { quiet with keys := 0x0020#16 } (start 0 [(2, v)])
theorem met_KeySkipsReadTheStepsKeys :
    true = (fiveDown 0x15#8).hostTurn.keys.getLsbD (((fiveDown 0x15#8).reg 2).toNat % 16) ∧
    false = (fiveDown 0x0F#8).hostTurn.keys.getLsbD (((fiveDown 0x0F#8).reg 2).toNat % 16) := by decide
/-- An awaiting state at an FX0A, given a key or not. -/
def polling (k : Option KeyIx) : State :=
  { withTurn { quiet with keyEvent := k, ticks := 1 } (at_ 0x0FFE#16 0xF30A) with awaiting := true }
theorem met_KeyWaitEntersPollsAndDelivers :
    (start 0 []).awaiting = false ∧ ((polling (some 15)).awaiting = true ∧ (polling (some 15)).hostTurn.keyEvent = some 15) ∧
    (polling none).awaiting = true ∧ (polling none).hostTurn.keyEvent = none := by decide
theorem met_WaitingWithoutAKeyChangesNothing :
    (polling none).AwaitsAtKeyWait ∧ (polling none).awaiting = true ∧ (polling none).hostTurn.keyEvent = none :=
  ⟨fun _ => ⟨by decide, 3, by decide⟩, by decide, by decide⟩
/-- A run without end, from the FX0A wait whose key never comes in its schedule. -/
theorem met_HostTurnIsItsTicksOneByOne : ∃ r, IsRun r ∧ r 0 = { polling none with onError := .goOn } := exists_run rfl
/-- A host that owes a tick every third turn gives one exactly then, beside those it gives freely. -/
theorem test_fair_host_ticks :
    (List.range 7).map (fun n => (fairTurn (fun _ => quiet) (fun _ => 2) n).ticks) = [0, 0, 1, 0, 0, 1, 0] := by decide
theorem met_IndexAndTimersChangeOnlyByTheirWriters :
    (∃ t, exec (.ldF 0) (start 0 []) = .next t ∧ t.index ≠ (start 0 []).index) ∧
    (∃ t, exec (.ldDtVx 0) (start 0 [(0, 0x01#8)]) = .next t ∧ t.dt ≠ (start 0 [(0, 0x01#8)]).dt) ∧
    ∃ t, exec (.ldStVx 0) (start 0 [(0, 0x01#8)]) = .next t ∧ t.st ≠ (start 0 [(0, 0x01#8)]).st :=
  ⟨⟨_, rfl, by decide⟩, ⟨_, rfl, by decide⟩, _, rfl, by decide⟩
theorem met_BcdStoresTheThreeDigits : (start 0x0FFD#16 []).index.toNat + 2 ≤ 0xFFF := by decide
theorem met_StoreRegistersWritesTheRange : (start 0x0FF0#16 []).index.toNat + (15 : RegIx).val ≤ 0xFFF := by decide
theorem met_LoadRegistersReadsTheRange : (start 0x0FFF#16 []).index.toNat + (0 : RegIx).val ≤ 0xFFF := by decide
theorem met_StoreThenLoadGivesTheRegistersBack :
    ∃ t, exec (.stRegs 0) (start 0x0FFF#16 [(0, 0x11#8)]) = .next t ∧ (t.setReg 0 0x00#8).index = t.index ∧
      ∀ j ≤ (0 : RegIx).val, (t.setReg 0 0x00#8).byte (0xFFF + j) = t.byte (0xFFF + j) :=
  ⟨_, rfl, rfl, fun _ _ => rfl⟩
theorem met_ResetPlacesFontAndImage (b : Byte) :
    defaultParams.font.length = 80 ∧ (List.replicate 3584 b).length ≤ 3584 ∧ (List.replicate 3585 b).length > 3584 :=
  ⟨by decide, Nat.le_of_eq List.length_replicate, by rw [List.length_replicate]; omega⟩
theorem met_ResetMeetsTheInvariants :
    defaultParams.WellFormed ∧ (resetWith defaultParams .halt [] [0x12#8, 0x00#8]).isSome = true := by decide
theorem met_StepKeepsCanonical :
    (at_ 0x0FFE#16 0xD015).Canonical ∧ ∃ t, step (at_ 0x0FFE#16 0xD015) = .next t :=
  ⟨⟨by decide, by decide, by decide⟩, _, rfl⟩
theorem met_AwaitingStaysAtTheKeyWait :
    (polling (some 7)).AwaitsAtKeyWait ∧ (polling (some 7)).awaiting = true ∧ ∃ t, step (polling (some 7)) = .next t :=
  ⟨fun _ => ⟨by decide, 3, by decide⟩, rfl, _, rfl⟩
theorem met_StepKeepsParametersAndTakesOneTurn : ∃ t, step (at_ 0x0200#16 0x1200) = .next t := ⟨_, rfl⟩
theorem met_InputsReachOnlyTheirInstructions :
    ({ fiveDown 0x05#8 with schedule := [{ quiet with keys := 0x0020#16, rnd := 0x01#8 }], turn := 3 } : State).hostTurn.keys =
      (fiveDown 0x05#8).hostTurn.keys := by decide
theorem met_FinishedProgramsStayFinished : (at_ 0x0FFE#16 0x1FFE).Finished :=
  ⟨by decide, rfl, 0xFFE#12, by decide, by decide⟩

end Sys2Proof.Tests
end

section
/-! PROOFS. Which host inputs an instruction reads (R8). A state is given another host, and each operation of the machine
is shown to commute with that, the three readers of an input under the agreement they need. -/

namespace Sys2Proof.Machine

/-- The state facing another host: other coming turns, and another number for the free ones. -/
def State.withHost (sch : List HostTurn) (n : Nat) (s : State) : State := { s with schedule := sch, turn := n }

section
variable (sch : List HostTurn) (n : Nat) (s : State)

/-! ## Operations that read no input -/

theorem raise_withHost (f : Fault) : raise f (s.withHost sch n) = onNext (State.withHost sch n) (raise f s) := by
  rcases raise_cases f s with ⟨h, hr⟩ | ⟨h, hr⟩
  · rw [hr, raise_halt f (show (s.withHost sch n).onError = .halt from h)]; rfl
  · rw [hr, raise_goOn f (show (s.withHost sch n).onError = .goOn from h)]; rfl

theorem withIndexRange_withHost (k : Nat) (e : State) :
    withIndexRange k (s.withHost sch n) (e.withHost sch n) = onNext (State.withHost sch n) (withIndexRange k s e) := by
  unfold withIndexRange
  rw [show (s.withHost sch n).index = s.index from rfl]
  cases rangeFault s.index.toNat k with
  | some a => exact raise_withHost sch n s _
  | none => rfl

theorem skipIf_withHost (c : Bool) : (s.withHost sch n).skipIf c = (s.skipIf c).withHost sch n := by
  cases c <;> rfl

theorem exec_call_withHost (nnn : Addr12) :
    exec (.call nnn) (s.withHost sch n) = onNext (State.withHost sch n) (exec (.call nnn) s) := by
  by_cases h : s.sp.val < 16
  · rw [exec_call_free h, exec_call_free (s := s.withHost sch n) h]; rfl
  · have hfull : s.sp.val = 16 := by have := s.sp.isLt; omega
    rw [exec_call_full hfull, exec_call_full (s := s.withHost sch n) hfull, raise_withHost]

theorem exec_ret_withHost : exec .ret (s.withHost sch n) = onNext (State.withHost sch n) (exec .ret s) := by
  by_cases h : s.sp.val = 0
  · rw [exec_ret_empty h, exec_ret_empty (s := s.withHost sch n) h, raise_withHost]
  · have hlt := s.sp.isLt
    have hj : s.sp.val = (⟨s.sp.val - 1, by omega⟩ : Fin 16).val + 1 := by simp only; omega
    rw [exec_ret_occupied hj, exec_ret_occupied (s := s.withHost sch n) hj]; rfl

/-! ## The readers of an input -/

variable {sch n s}

theorem keyDown_withHost (h : (s.withHost sch n).hostTurn.keys = s.hostTurn.keys) (k : Nat) :
    (s.withHost sch n).keyDown k = s.keyDown k := by
  simp only [State.keyDown, h]

theorem exec_skp_withHost (x : RegIx) (h : (s.withHost sch n).hostTurn.keys = s.hostTurn.keys) :
    exec (.skp x) (s.withHost sch n) = onNext (State.withHost sch n) (exec (.skp x) s) := by
  show execSkp x _ = onNext _ (execSkp x s)
  rw [execSkp, keyDown_withHost h, skipIf_withHost]; rfl

theorem exec_sknp_withHost (x : RegIx) (h : (s.withHost sch n).hostTurn.keys = s.hostTurn.keys) :
    exec (.sknp x) (s.withHost sch n) = onNext (State.withHost sch n) (exec (.sknp x) s) := by
  show execSknp x _ = onNext _ (execSknp x s)
  rw [execSknp, keyDown_withHost h, skipIf_withHost]; rfl

theorem pollKey_withHost (x : RegIx) (h : (s.withHost sch n).hostTurn.keyEvent = s.hostTurn.keyEvent) :
    (s.withHost sch n).pollKey x = (s.pollKey x).withHost sch n := by
  unfold State.pollKey
  rw [h]
  cases s.hostTurn.keyEvent <;> rfl

theorem exec_ldVxK_withHost (x : RegIx) (h : (s.withHost sch n).hostTurn.keyEvent = s.hostTurn.keyEvent) :
    exec (.ldVxK x) (s.withHost sch n) = onNext (State.withHost sch n) (exec (.ldVxK x) s) := by
  show execLdVxK x _ = onNext _ (execLdVxK x s)
  rw [execLdVxK, execLdVxK, pollKey_withHost x h, show (s.withHost sch n).awaiting = s.awaiting from rfl]
  cases s.awaiting <;> rfl

theorem exec_rnd_withHost (x : RegIx) (nn : Byte) (h : (s.withHost sch n).hostTurn.rnd = s.hostTurn.rnd) :
    exec (.rnd x nn) (s.withHost sch n) = onNext (State.withHost sch n) (exec (.rnd x nn) s) := by
  show execRnd x nn _ = onNext _ (execRnd x nn s)
  rw [execRnd, h]; rfl

end

/-- Settles O59, instruction by instruction: the readers of an input by their agreement, the skips, the stack and the
accesses through `I` by their operation's lemma; the rest never look at the host's fields. -/
theorem inputsReachOnlyTheirInstructions : Obligations.InputsReachOnlyTheirInstructions := by
  unfold Obligations.InputsReachOnlyTheirInstructions
  intro i s sch n hkeys hevent hrnd
  change exec i (s.withHost sch n) = onNext (State.withHost sch n) (exec i s)
  cases i
  case skp x => exact exec_skp_withHost x (hkeys ⟨x, .inl rfl⟩)
  case sknp x => exact exec_sknp_withHost x (hkeys ⟨x, .inr rfl⟩)
  case ldVxK x => exact exec_ldVxK_withHost x (hevent ⟨x, rfl⟩)
  case rnd x nn => exact exec_rnd_withHost x nn (hrnd ⟨x, nn, rfl⟩)
  case call nnn => exact exec_call_withHost sch n s nnn
  case ret => exact exec_ret_withHost sch n s
  case seImm x nn => exact congrArg _ (skipIf_withHost sch n s _)
  case sneImm x nn => exact congrArg _ (skipIf_withHost sch n s _)
  case seReg x y => exact congrArg _ (skipIf_withHost sch n s _)
  case sneReg x y => exact congrArg _ (skipIf_withHost sch n s _)
  case drw x y k => exact withIndexRange_withHost sch n s k.val (s.takeCanvas (s.drawn x y k.val))
  case ldB x => exact withIndexRange_withHost sch n s 3 (s.storeBytes (s.ea 0) (bcdDigits (s.reg x)))
  case stRegs x => exact withIndexRange_withHost sch n s (x.val + 1) (s.storeBytes (s.ea 0) (s.regsUpTo x))
  case ldRegs x => exact withIndexRange_withHost sch n s (x.val + 1) (s.loadRegs x (fun j => s.byte (s.ea j)))
  all_goals rfl

end Sys2Proof.Machine
end

section
/-! PROOFS. What an instruction that goes on can do to the state, said once for every instruction. The frame rules and the
invariants of the state are case splits over it. -/

namespace Sys2Proof.Machine

/-- The register an instruction writes because its field `X` names it as the destination (R37); FX65 names a range. -/
def destination : Instr → Option RegIx
  | .ldImm x _ | .addImm x _ | .ldReg x _ | .orReg x _ | .andReg x _ | .xorReg x _ | .addReg x _ | .sub x _ | .shr x _
  | .subn x _ | .shl x _ | .rnd x _ | .ldVxDt x | .ldVxK x => some x
  | _ => none

/-- The instructions that write a flag to VF (R22). -/
def writesFlag : Instr → Bool
  | .addReg _ _ | .sub _ _ | .subn _ _ | .shr _ _ | .shl _ _ | .drw _ _ _ | .addI _ => true
  | _ => false

/-- Everything an instruction that goes on can do to the state `s`, as to which parts it writes: one constructor for each
kind of update. Values no frame rule needs are left open. -/
inductive Effect (s : State) : Instr → State → Prop where
  /-- The instruction's own check has failed under the policy that goes on (R214, R217). -/
  | noted (i : Instr) (f : Fault) : Effect s i { s with error := some f }
  /-- Jumps and skips, and a poll of the key wait without a key. -/
  | jumpTo (i : Instr) (w : Word) : Effect s i (s.jumpTo w)
  /-- The destination alone. -/
  | setReg {i : Instr} {x : RegIx} (hx : destination i = some x) (b : Byte) : Effect s i (s.setReg x b)
  /-- The destination, then the flag (R23). -/
  | setRegFlag {i : Instr} {x : RegIx} (hx : destination i = some x) (hf : writesFlag i = true) (b : Byte) (f : Bool) :
    Effect s i (s.setRegFlag x b f)
  /-- ANNN. -/
  | ldI (nnn : Addr12) (w : Word) : Effect s (.ldI nnn) (s.setIndex w)
  /-- FX29. -/
  | ldF (x : RegIx) (w : Word) : Effect s (.ldF x) (s.setIndex w)
  /-- FX1E. -/
  | addI (x : RegIx) (w : Word) (f : Bool) : Effect s (.addI x) ((s.setIndex w).setFlag f)
  /-- FX15. -/
  | ldDtVx (x : RegIx) (b : Byte) : Effect s (.ldDtVx x) { s with dt := b }
  /-- FX18. -/
  | ldStVx (x : RegIx) (b : Byte) : Effect s (.ldStVx x) { s with st := b }
  /-- 2NNN with a free slot. -/
  | call (nnn : Addr12) (k : Vector Word 16) (n : Fin 17) (w : Word) :
    Effect s (.call nnn) { s with stack := k, sp := n, pc := w }
  /-- 00EE with an occupied slot. -/
  | ret (n : Fin 17) (w : Word) : Effect s .ret { s with sp := n, pc := w }
  /-- FX33 and FX55 inside the 4096 bytes. -/
  | storeBytes {i : Instr} (hi : (∃ x, i = .ldB x) ∨ ∃ x, i = .stRegs x) (a : Nat) (bs : List Byte)
    (ha : a + bs.length ≤ memorySize) : Effect s i (s.storeBytes a bs)
  /-- FX65: the registers above `X` keep their values. -/
  | ldRegs (x : RegIx) (v : Vector Byte 16) (hv : ∀ r : RegIx, ¬r ≤ x → v[r.val] = s.v[r.val]) :
    Effect s (.ldRegs x) { s with v := v }
  /-- 00E0. -/
  | cls : Effect s .cls (({ s with disp := [] } : State).emit [.clear, .present])
  /-- DXYN. -/
  | draw (x y : RegIx) (n : Fin 16) : Effect s (.drw x y n) (s.takeCanvas (s.drawn x y n.val))
  /-- The entry step of FX0A (R174). -/
  | keyWait (x : RegIx) : Effect s (.ldVxK x) { s.stay with awaiting := true }
  /-- A poll of FX0A that delivers a key (R174). -/
  | keyPress (x : RegIx) (b : Byte) : Effect s (.ldVxK x) { s.setReg x b with awaiting := false }

variable {s t : State}

/-! ## Every instruction has one of these effects -/

theorem effect_of_raise {i : Instr} {f : Fault} (h : raise f s = .next t) : Effect s i t := by
  rcases raise_cases f s with ⟨-, hr⟩ | ⟨-, hr⟩
  · rw [hr] at h; cases h
  · rw [hr] at h; cases h; exact .noted i f

theorem effect_of_withIndexRange {i : Instr} {n : Nat} {e : State}
    (he : n = 0 ∨ s.index.toNat + n - 1 ≤ 0xFFF → Effect s i e) (h : withIndexRange n s e = .next t) : Effect s i t := by
  rcases withIndexRange_cases n s e with ⟨hn, hr⟩ | ⟨-, -, hr⟩
  · rw [hr] at h; cases h; exact he hn
  · exact effect_of_raise (hr ▸ h)

theorem effect_skipIf (i : Instr) (s : State) (c : Bool) : Effect s i (s.skipIf c) := by
  rw [skipIf_eq]; exact .jumpTo i _

theorem effect_call {nnn : Addr12} (h : exec (.call nnn) s = .next t) : Effect s (.call nnn) t := by
  by_cases hsp : s.sp.val = 16
  · exact effect_of_raise (exec_call_full hsp ▸ h)
  · rw [exec_call_free (by have := s.sp.isLt; omega)] at h
    cases h; exact .call ..

theorem effect_ret (h : exec .ret s = .next t) : Effect s .ret t := by
  by_cases hsp : s.sp.val = 0
  · exact effect_of_raise (exec_ret_empty hsp ▸ h)
  · have hlt := s.sp.isLt
    have hj : s.sp.val = (⟨s.sp.val - 1, by omega⟩ : Fin 16).val + 1 := by simp only; omega
    rw [exec_ret_occupied hj] at h
    cases h; exact .ret ..

/-- A store through `I` is made after its range check, so inside the 4096 bytes (R70). -/
theorem effect_store {i : Instr} {bs : List Byte} (hi : (∃ x, i = .ldB x) ∨ ∃ x, i = .stRegs x) {n : Nat}
    (hn : bs.length = n) (hpos : 0 < n) (h : withIndexRange n s (s.storeBytes (s.ea 0) bs) = .next t) :
    Effect s i t :=
  effect_of_withIndexRange (fun hr => .storeBytes hi _ _ (by simp only [State.ea, memorySize]; omega)) h

theorem effect_loadRegs (s : State) (x : RegIx) (f : Nat → Byte) : Effect s (.ldRegs x) (s.loadRegs x f) :=
  .ldRegs x (s.loadRegs x f).v (fun r hr => (reg_loadRegs s x r f).trans (if_neg hr))

/-- Everything FX0A can do: enter the wait, or poll, with a key or without one (R174). -/
theorem exec_ldVxK_cases (x : RegIx) (s : State) :
    (s.awaiting = false ∧ exec (.ldVxK x) s = .next { s.stay with awaiting := true }) ∨
    (s.awaiting = true ∧ s.hostTurn.keyEvent = none ∧ exec (.ldVxK x) s = .next s.stay) ∨
    (s.awaiting = true ∧ ∃ k, s.hostTurn.keyEvent = some k ∧
      exec (.ldVxK x) s = .next { s.setReg x (BitVec.ofNat 8 k.val) with awaiting := false }) := by
  change (_ ∧ execLdVxK x s = _) ∨ (_ ∧ _ ∧ execLdVxK x s = _) ∨ (_ ∧ ∃ k, _ ∧ execLdVxK x s = _)
  unfold execLdVxK State.pollKey
  cases s.awaiting with
  | false => exact .inl ⟨rfl, rfl⟩
  | true =>
    cases s.hostTurn.keyEvent with
    | none => exact .inr (.inl ⟨rfl, rfl, rfl⟩)
    | some k => exact .inr (.inr ⟨rfl, k, rfl, rfl⟩)

theorem effect_ldVxK {x : RegIx} (h : exec (.ldVxK x) s = .next t) : Effect s (.ldVxK x) t := by
  rcases exec_ldVxK_cases x s with ⟨-, hr⟩ | ⟨-, -, hr⟩ | ⟨-, k, -, hr⟩
  · rw [hr] at h; cases h; exact .keyWait x
  · rw [hr] at h; cases h; exact .jumpTo ..
  · rw [hr] at h; cases h; exact .keyPress x _

/-- Everything an instruction that goes on can have done. -/
theorem exec_effect {i : Instr} (h : exec i s = .next t) : Effect s i t := by
  cases i
  case call => exact effect_call h
  case ret => exact effect_ret h
  case ldVxK => exact effect_ldVxK h
  case drw x y n => exact effect_of_withIndexRange (fun _ => .draw x y n) h
  case ldRegs x => exact effect_of_withIndexRange (fun _ => effect_loadRegs s x _) h
  case ldB x => exact effect_store (bs := bcdDigits (s.reg x)) (.inl ⟨x, rfl⟩) rfl (Nat.zero_lt_succ 2) h
  case stRegs x => exact effect_store (.inr ⟨x, rfl⟩) (length_regsUpTo s x) (Nat.zero_lt_succ _) h
  case seImm | sneImm | seReg | sneReg | skp | sknp => cases h; exact effect_skipIf ..
  case jp | jpV0 => cases h; exact .jumpTo ..
  case addReg | sub | shr | subn | shl => cases h; exact .setRegFlag rfl rfl ..
  case ldI => cases h; exact .ldI ..
  case ldF => cases h; exact .ldF ..
  case addI => cases h; exact .addI ..
  case ldDtVx => cases h; exact .ldDtVx ..
  case ldStVx => cases h; exact .ldStVx ..
  case cls => cases h; exact .cls
  case ldImm | addImm | ldReg | orReg | andReg | xorReg | rnd | ldVxDt => cases h; exact .setReg rfl _

end Sys2Proof.Machine
end

section
/-! PROOFS. The invariants of the state (R39, R41): what each effect keeps of them, and then every step. -/

namespace Sys2Proof.Machine

variable {s t : State}

/-! ## The canonical form -/

/-- No effect leaves the canonical form: memory is only stored to in range, and the display only cleared or drawn on. -/
theorem Effect.canonical {i : Instr} (h : Effect s i t) (hs : s.Canonical) : t.Canonical := by
  obtain ⟨hp, hm, hd⟩ := hs
  cases h
  case storeBytes a bs ha _ => exact ⟨hp, wf_store bs hm ha, hd⟩
  case cls => exact ⟨hp, hm, wf_display_nil _⟩
  case draw x y n => exact ⟨hp, hm, wf_drawSprite hp.1 hp.2.1 hd _ _ _⟩
  all_goals exact ⟨hp, hm, hd⟩

/-- Settles O56: each effect keeps the canonical form, and neither what a step does around the instruction nor an error
reaches memory, display or parameters. -/
theorem stepKeepsCanonical : Obligations.StepKeepsCanonical := by
  unfold Obligations.StepKeepsCanonical
  intro s t hs h
  rcases step_next_cases h with ⟨i, u, -, -, -, hu, -, rfl⟩ | ⟨f, -, rfl⟩
  · have hbegin : (beginStep s).advance.Canonical := hs
    have hcan : u.Canonical := (exec_effect hu).canonical hbegin
    exact hcan
  · exact hs

/-! ## The key wait -/

/-- Only FX0A begins a wait. -/
theorem Effect.eq_ldVxK_of_awaiting {i : Instr} (h : Effect s i t) (hs : s.awaiting = false) (ht : t.awaiting = true) :
    ∃ x, i = .ldVxK x := by
  cases h
  case keyWait x => exact ⟨x, rfl⟩
  case keyPress x b => exact ⟨x, rfl⟩
  all_goals exact absurd (hs.symm.trans ht) Bool.false_ne_true

/-- An FX0A after which a key is awaited has gone back to its own address and left memory alone (R174). -/
theorem exec_ldVxK_of_awaiting {x : RegIx} (h : exec (.ldVxK x) s = .next t) (ht : t.awaiting = true) :
    t.pc = s.pc - 2#16 ∧ t.mem = s.mem ∧ t.params = s.params := by
  rcases exec_ldVxK_cases x s with ⟨-, hr⟩ | ⟨-, -, hr⟩ | ⟨-, k, -, hr⟩
  · rw [hr] at h; cases h; exact ⟨rfl, rfl, rfl⟩
  · rw [hr] at h; cases h; exact ⟨rfl, rfl, rfl⟩
  · rw [hr] at h; cases h; exact absurd ht Bool.false_ne_true

/-- A step after which a key is awaited has run the FX0A at `pc`: the one that was already waiting, or one that has begun
to. -/
theorem step_ran_ldVxK_of_awaiting (hs : s.AwaitsAtKeyWait) (h : step s = .next t) (ht : t.awaiting = true) :
    ∃ x u, s.pc.toNat ≤ 0xFFE ∧ decodeWord s.fetchWord = some (.ldVxK x) ∧
      exec (.ldVxK x) (beginStep s).advance = .next u ∧ t = endTurn u := by
  cases hw : s.awaiting with
  | true =>
    obtain ⟨hpc, x, hd⟩ := hs hw
    rw [step_of_decoded hpc hd] at h
    obtain ⟨u, hu, rfl⟩ := onNext_eq_next.1 h
    exact ⟨x, u, hpc, hd, hu, rfl⟩
  | false =>
    rcases step_next_cases h with ⟨i, u, hpc, hd, -, hu, -, rfl⟩ | ⟨f, -, rfl⟩
    · obtain ⟨x, rfl⟩ := (exec_effect hu).eq_ldVxK_of_awaiting hw ht
      exact ⟨x, u, hpc, hd, hu, rfl⟩
    · exact absurd (hw.symm.trans ht) Bool.false_ne_true

theorem fetchWord_congr (hp : t.params = s.params) (hm : t.mem = s.mem) (hpc : t.pc = s.pc) :
    t.fetchWord = s.fetchWord := by
  simp only [State.fetchWord, hpc, byte_of_mem hp hm]

/-- Settles O57: a step that leaves the machine waiting has run an FX0A, which stays at its address and writes no memory. -/
theorem awaitingStaysAtTheKeyWait : Obligations.AwaitingStaysAtTheKeyWait := by
  unfold Obligations.AwaitingStaysAtTheKeyWait
  refine ⟨fun s hs => hs, fun s t hs h ht => ?_⟩
  obtain ⟨x, u, hpc, hd, hu, rfl⟩ := step_ran_ldVxK_of_awaiting hs h ht
  obtain ⟨hupc, hum, hup⟩ := exec_ldVxK_of_awaiting hu ht
  have hback : u.pc = s.pc := by simpa using hupc
  have hword : (endTurn u).fetchWord = s.fetchWord := fetchWord_congr (s := s) (t := endTurn u) hup hum hback
  exact ⟨by rwa [endTurn_pc, hback], x, by rw [hword, hd]⟩

/-! ## The host's side -/

/-- Settles O58: no instruction and no error touches the host's side, and the end of the turn takes one turn. -/
theorem stepKeepsParametersAndTakesOneTurn : Obligations.StepKeepsParametersAndTakesOneTurn := by
  unfold Obligations.StepKeepsParametersAndTakesOneTurn
  intro s t h
  rcases step_next_cases h with ⟨i, u, -, -, -, -, hk, rfl⟩ | ⟨f, -, rfl⟩
  · exact ⟨hk.params, hk.onError, congrArg List.tail hk.schedule, congrArg (· + 1) hk.turn⟩
  · exact ⟨rfl, rfl, rfl, rfl⟩

end Sys2Proof.Machine
end

section
/-! PROOFS. Which instructions write a register, the stack, the index register and the timers (R37, R27, R204). -/

namespace Sys2Proof.Machine

variable {s t : State} {i : Instr}

/-! ## Registers -/

/-- The instructions with a destination, by name. -/
theorem destination_eq_some {r : RegIx} (h : destination i = some r) :
    (∃ nn, i = .ldImm r nn) ∨ (∃ nn, i = .addImm r nn) ∨ (∃ y, i = .ldReg r y) ∨ (∃ y, i = .orReg r y) ∨
    (∃ y, i = .andReg r y) ∨ (∃ y, i = .xorReg r y) ∨ (∃ y, i = .addReg r y) ∨ (∃ y, i = .sub r y) ∨
    (∃ y, i = .shr r y) ∨ (∃ y, i = .subn r y) ∨ (∃ y, i = .shl r y) ∨ (∃ nn, i = .rnd r nn) ∨
    i = .ldVxDt r ∨ i = .ldVxK r := by
  cases i <;> simp_all [destination]

/-- The flag writers, by name. -/
theorem writesFlag_eq_true (h : writesFlag i = true) :
    (∃ x y, i = .addReg x y) ∨ (∃ x y, i = .sub x y) ∨ (∃ x y, i = .subn x y) ∨ (∃ x y, i = .shr x y) ∨
    (∃ x y, i = .shl x y) ∨ (∃ x y n, i = .drw x y n) ∨ (∃ x, i = .addI x) := by
  cases i <;> simp_all [writesFlag]

theorem eq_of_reg_setReg_ne {x r : RegIx} {b : Byte} (h : (s.setReg x b).reg r ≠ s.reg r) : r = x := by
  by_contra hne
  exact h (by rw [reg_setReg, if_neg hne])

/-- A register that an effect changes is VF under a flag writer, the destination, or in the range of FX65. -/
theorem Effect.writer_of_reg_ne (h : Effect s i t) {r : RegIx} (hr : t.reg r ≠ s.reg r) :
    (r = 15 ∧ writesFlag i = true) ∨ destination i = some r ∨ ∃ x, i = .ldRegs x ∧ r ≤ x := by
  cases h
  case setReg x b hx => exact .inr (.inl (eq_of_reg_setReg_ne hr ▸ hx))
  case keyPress x b => exact .inr (.inl (congrArg some (eq_of_reg_setReg_ne hr).symm))
  case setRegFlag x b f hx hf =>
    by_cases hflag : r = flagReg
    · exact .inl ⟨hflag, hf⟩
    · rw [setRegFlag_eq, reg_setReg, if_neg hflag] at hr
      exact .inr (.inl (eq_of_reg_setReg_ne hr ▸ hx))
  case addI x w f => exact .inl ⟨eq_of_reg_setReg_ne (s := s.setIndex w) hr, rfl⟩
  case draw x y n => exact .inl ⟨eq_of_reg_setReg_ne (s := { s with disp := _ }) hr, rfl⟩
  case ldRegs x v hv => exact .inr (.inr ⟨x, rfl, by by_contra hne; exact hr (hv r hne)⟩)
  all_goals exact absurd rfl hr

/-- Settles O24: the effect that changed the register names its writer. -/
theorem registersChangeOnlyByTheirWriters : Obligations.RegistersChangeOnlyByTheirWriters := by
  unfold Obligations.RegistersChangeOnlyByTheirWriters
  intro i s t r h hr
  refine ((exec_effect h).writer_of_reg_ne hr).imp (fun ⟨h15, hf⟩ => ⟨h15, writesFlag_eq_true hf⟩) (fun hvx => ?_)
  simpa only [or_assoc] using hvx.imp_left destination_eq_some

/-! ## Stack, index register and timers -/

/-- Settles O31: every effect but a call's and a return's leaves the stack and `SP` as they were. -/
theorem onlyCallAndReturnTouchTheStack : Obligations.OnlyCallAndReturnTouchTheStack := by
  unfold Obligations.OnlyCallAndReturnTouchTheStack
  intro i s t h hne
  cases exec_effect h
  case call nnn k n w => exact .inl ⟨nnn, rfl⟩
  case ret n w => exact .inr rfl
  all_goals exact (hne.elim (· rfl) (· rfl)).elim

theorem Effect.writer_of_index_ne (h : Effect s i t) (hne : t.index ≠ s.index) :
    (∃ nnn, i = .ldI nnn) ∨ (∃ x, i = .addI x) ∨ (∃ x, i = .ldF x) := by
  cases h
  case ldI nnn w => exact .inl ⟨nnn, rfl⟩
  case addI x w f => exact .inr (.inl ⟨x, rfl⟩)
  case ldF x w => exact .inr (.inr ⟨x, rfl⟩)
  all_goals exact absurd rfl hne

theorem Effect.writer_of_dt_ne (h : Effect s i t) (hne : t.dt ≠ s.dt) : ∃ x, i = .ldDtVx x := by
  cases h
  case ldDtVx x b => exact ⟨x, rfl⟩
  all_goals exact absurd rfl hne

theorem Effect.writer_of_st_ne (h : Effect s i t) (hne : t.st ≠ s.st) : ∃ x, i = .ldStVx x := by
  cases h
  case ldStVx x b => exact ⟨x, rfl⟩
  all_goals exact absurd rfl hne

/-- Settles O45: each of the three is written by the effects of its writers alone. -/
theorem indexAndTimersChangeOnlyByTheirWriters : Obligations.IndexAndTimersChangeOnlyByTheirWriters := by
  unfold Obligations.IndexAndTimersChangeOnlyByTheirWriters
  intro i s t h
  have he := exec_effect h
  exact ⟨he.writer_of_index_ne, he.writer_of_dt_ne, he.writer_of_st_ne⟩

end Sys2Proof.Machine
end

section
/-! PROOFS. The state after reset (R38, R250). -/

namespace Sys2Proof.Machine

/-- Settles O53: the vectors of reset are constant zeroes, the other values are written out. -/
theorem resetZeroesRegistersTimersAndStack : Obligations.ResetZeroesRegistersTimersAndStack := by
  unfold Obligations.ResetZeroesRegistersTimersAndStack
  refine ⟨fun r => ?_, rfl, rfl, rfl, fun j => ?_⟩
  · exact Vector.getElem_replicate ..
  · exact Vector.getElem_replicate ..

theorem awaitsAtKeyWait_of_not_awaiting {s : State} (h : s.awaiting = false) : s.AwaitsAtKeyWait :=
  fun ht => absurd (h.symm.trans ht) Bool.false_ne_true

/-- What `reset(image)` answers, where it answers (R254). -/
theorem resetWith_eq_some {p : Params} {e : OnError} {sch : List HostTurn} {image : List Byte} {s : State} :
    resetWith p e sch image = some s ↔ ImageWellFormed image ∧
      s = { State.reset with
        params := p, onError := e, schedule := sch, mem := Memory.store p programBase image [] } := by
  unfold resetWith
  split <;> simp_all [eq_comm]

/-- An image that fits is stored into the empty memory inside the 4096 bytes. -/
theorem wf_store_image (p : Params) {image : List Byte} (h : ImageWellFormed image) :
    Memory.wf p (Memory.store p programBase image []) :=
  wf_store image (wf_nil p) (by simp only [ImageWellFormed, maxImage] at h; simp only [programBase, memorySize]; omega)

/-- Settles O55: no key is awaited at reset, the display is dark, and memory is empty but for an image that fits. -/
theorem resetMeetsTheInvariants : Obligations.ResetMeetsTheInvariants := by
  unfold Obligations.ResetMeetsTheInvariants
  refine ⟨⟨by decide, wf_nil _, wf_display_nil _⟩, awaitsAtKeyWait_of_not_awaiting rfl, ?_⟩
  intro p e sch image s hp h
  obtain ⟨himage, rfl⟩ := resetWith_eq_some.1 h
  exact ⟨⟨hp, wf_store_image p himage, wf_display_nil p⟩, awaitsAtKeyWait_of_not_awaiting rfl⟩

end Sys2Proof.Machine
end

section
/-! PROOFS. Memory and the accesses to it: a byte write (R61), the range check (R58, R70, R213), and that a fetch sees what
was stored (R62, R64, R68). -/

namespace Sys2Proof.Machine

/-- Settles O11: reading after a write looks the written address up first, whether or not the list is canonical. -/
theorem writeSetsOneByte : Obligations.WriteSetsOneByte := by
  unfold Obligations.WriteSetsOneByte
  exact read_write

/-! ## The range check -/

theorem translateAddress_eq_some {a : Nat} : translateAddress a = some a ↔ a ≤ 0xFFF := by
  simp [translateAddress]

theorem translateAddress_eq_none {a : Nat} : translateAddress a = none ↔ 0xFFF < a := by
  simp [translateAddress]

/-- The range check passes exactly where every address is at most 0xFFF: checking the last suffices (R70). -/
theorem rangeFault_eq_none_iff_forall {base n : Nat} : rangeFault base n = none ↔ ∀ j < n, base + j ≤ 0xFFF := by
  rw [rangeFault_eq_none]
  constructor
  · intro h j hj
    omega
  · intro h
    by_cases hn : n = 0
    · exact .inl hn
    · have hlast := h (n - 1) (by omega)
      exact .inr (by omega)

/-- The range check answers the lowest address above 0xFFF among the `n` (R213). -/
theorem rangeFault_eq_some_iff_lowest {base n a : Nat} :
    rangeFault base n = some a ↔ (∃ j < n, a = base + j) ∧ 0xFFF < a ∧ ∀ j < n, base + j < a → base + j ≤ 0xFFF := by
  rw [rangeFault_eq_some]
  constructor
  · rintro ⟨hn, hlast, rfl⟩
    split
    · exact ⟨⟨0, hn, rfl⟩, by omega, fun j _ hj => by omega⟩
    · exact ⟨⟨0x1000 - base, by omega, by omega⟩, by omega, fun j _ hj => by omega⟩
  · rintro ⟨⟨j, hj, rfl⟩, ha, hlow⟩
    refine ⟨by omega, by omega, ?_⟩
    split
    · have hbase := hlow 0 (by omega)
      omega
    · have hpred := hlow (j - 1) (by omega)
      omega

/-- Settles O12: an address translates exactly when it is at most 0xFFF, in which words both answers are the range
check's. -/
theorem rangeCheckFindsTheLowestBadAddress : Obligations.RangeCheckFindsTheLowestBadAddress := by
  unfold Obligations.RangeCheckFindsTheLowestBadAddress
  intro base n
  simp only [ne_eq, translateAddress_eq_some, translateAddress_eq_none, Nat.not_lt]
  exact ⟨rangeFault_eq_none_iff_forall, fun a => rangeFault_eq_some_iff_lowest⟩

/-! ## The instructions that touch memory through `I` -/

theorem withIndexRange_past_end {n : Nat} {s : State} (e : State) (hn : 0 < n) (h : s.index.toNat + n - 1 > 0xFFF) :
    withIndexRange n s e = raise (.memoryRangeFault (offending s.index.toNat)) s := by
  rcases withIndexRange_cases n s e with ⟨hin, -⟩ | ⟨-, -, hr⟩
  · omega
  · exact hr

/-- Settles O13: each of the four forms is its effect behind the range check, which raises the error from the state it
was given. -/
theorem indexedAccessPastTheEndIsAnError : Obligations.IndexedAccessPastTheEndIsAnError := by
  unfold Obligations.IndexedAccessPastTheEndIsAnError
  intro i s n hi hn hend
  have hexec : ∃ e, exec i s = withIndexRange n s e := by
    rcases hi with ⟨x, y, k, rfl, rfl⟩ | ⟨x, rfl, rfl⟩ | ⟨x, rfl, rfl⟩ | ⟨x, rfl, rfl⟩
    all_goals exact ⟨_, rfl⟩
  obtain ⟨e, he⟩ := hexec
  rw [he, withIndexRange_past_end e hn hend]
  exact ⟨raise_halt _, raise_goOn _⟩

/-- FX55 where its range fits: the stored state (R198). -/
theorem exec_stRegs_next {x : RegIx} {s : State} (h : s.index.toNat + x.val ≤ 0xFFF) :
    exec (.stRegs x) s = .next (s.storeBytes s.index.toNat (s.regsUpTo x)) :=
  withIndexRange_next _ (.inr (by omega))

theorem byte_storeBytes_regsUpTo (s : State) (a : Nat) {x j : RegIx} (h : j.val ≤ x.val) :
    (s.storeBytes a (s.regsUpTo x)).byte (a + j.val) = s.reg j := by
  have hlen : j.val < (s.regsUpTo x).length := by rw [length_regsUpTo]; omega
  rw [byte_storeBytes_inside s a j.val _ hlen, getElem_regsUpTo]

/-! ## The fetch sees what was stored -/

theorem fetchWord_of_pc {s : State} {a : Nat} (h : s.pc.toNat = a) : s.fetchWord = s.byte a ++ s.byte (a + 1) := by
  subst h; rfl

/-- Settles O14: `V[j]` and `V[j + 1]` stand at `I + j` and the address after it, which a fetch joins in that order. -/
theorem fetchSeesStoredRegisters : Obligations.FetchSeesStoredRegisters := by
  unfold Obligations.FetchSeesStoredRegisters
  intro x s j h hj hend
  refine ⟨_, exec_stRegs_next hend, ?_⟩
  have hpc : (BitVec.ofNat 16 (s.index.toNat + j)).toNat = s.index.toNat + j := by
    rw [BitVec.toNat_ofNat]; omega
  rw [fetchWord_of_pc hpc]
  exact congrArg₂ (· ++ ·)
    (byte_storeBytes_regsUpTo s s.index.toNat (j := ⟨j, Nat.lt_of_succ_lt h⟩) (Nat.le_of_succ_le hj))
    (byte_storeBytes_regsUpTo s s.index.toNat (j := ⟨j + 1, h⟩) hj)

/-! ## The word stored where the next fetch reads -/

@[simp] theorem length_bytesOfWord (w : Word) : (bytesOfWord w).length = 2 := rfl

/-- The host's numbering goes through the bytes in memory and comes back to the same word (R64). -/
theorem decodeTableWord_eq_decodeWord (nbits w : Nat) :
    decodeTableWord nbits w = decodeWord (tableWord nbits w) := by
  simp only [decodeTableWord, bytesOfWord, decode, wordOfBytes_bytesOfWord]
  cases decodeWord (tableWord nbits w) <;> rfl

/-- Where the interface stores a word: at `pc`, or at the entry point where no fetch can succeed at `pc`. -/
def State.wordSlot (s : State) : Word := if s.pc.toNat ≤ 0xFFE then s.pc else 0x0200#16

theorem wordSlot_le (s : State) : s.wordSlot.toNat ≤ 0xFFE := by
  unfold State.wordSlot
  split
  · assumption
  · decide

theorem withWordAtPc_eq (s : State) (w : Word) :
    s.withWordAtPc w = (s.jumpTo s.wordSlot).storeBytes s.wordSlot.toNat (bytesOfWord w) := by
  unfold State.withWordAtPc State.wordSlot
  by_cases h : s.pc.toNat ≤ 0xFFE
  · rw [fetchFault_eq_none h, if_pos h]; rfl
  · rw [fetchFault_eq_some (Nat.lt_of_not_le h), if_neg h]; rfl

/-- A word stored at `pc` is the word fetched there (R62, R64). -/
theorem fetchWord_storeBytes_pc (s : State) (w : Word) :
    (s.storeBytes s.pc.toNat (bytesOfWord w)).fetchWord = w := by
  have hhi := byte_storeBytes_inside s s.pc.toNat 0 (bytesOfWord w) Nat.zero_lt_two
  have hlo := byte_storeBytes_inside s s.pc.toNat 1 (bytesOfWord w) Nat.one_lt_two
  rw [State.fetchWord, storeBytes_pc]
  exact (congrArg₂ wordOfBytes hhi hlo).trans (wordOfBytes_bytesOfWord w)

/-- Settles O10: the interface stores the word at an address a fetch can read and leaves every other byte, so the next
step decodes that word. -/
theorem storedWordIsTheNextOneRun : Obligations.StoredWordIsTheNextOneRun := by
  unfold Obligations.StoredWordIsTheNextOneRun
  intro s w i hw
  refine ⟨_, withWordAtPc_eq s (tableWord 16 w), wordSlot_le s, rfl, fun a ha ha' => ?_, ?_⟩
  · rw [storeBytes_pc, jumpTo_pc] at ha ha'
    have hout : ¬(s.wordSlot.toNat ≤ a ∧ a < s.wordSlot.toNat + (bytesOfWord (tableWord 16 w)).length) := by
      rw [length_bytesOfWord]; omega
    exact byte_storeBytes_outside _ _ _ _ hout
  · refine step_of_decoded (wordSlot_le s) ?_
    have hword := fetchWord_storeBytes_pc (s.jumpTo s.wordSlot) (tableWord 16 w)
    rw [jumpTo_pc] at hword
    rw [hword, ← decodeTableWord_eq_decodeWord, hw]

end Sys2Proof.Machine
end

section
/-! PROOFS. Decoder and encoder are inverse to each other, and both follow the opcode map (R81, R85, R87). Three facts carry
the statements: the decoder undoes the encoder, every word it accepts is the encoding of its answer, and every word that a
row of the map covers is the encoding of an instruction of that row. -/

namespace Sys2Proof

/-! ## The decoder undoes the encoder -/

/-- Each instruction by the format of its word (R82): the word's family, and within a family its low nibble or low byte,
select the instruction's own arm. -/
@[simp] theorem decodeWord_encodeWord (i : Instr) : decodeWord (encodeWord i) = some i := by
  cases i
  case cls | ret => rfl
  case jp | call | ldI | jpV0 => simp [encodeWord, decodeWord]
  case seImm | sneImm | ldImm | addImm | rnd => simp [encodeWord, decodeWord]
  case seReg | sneReg | drw => simp [encodeWord, decodeWord]
  case ldReg | orReg | andReg | xorReg | addReg | sub | shr | subn | shl =>
    simp [encodeWord, decodeWord, decodeFamily8]
  case skp | sknp => simp [encodeWord, decodeWord, decodeFamilyE]
  case ldVxDt | ldVxK | ldDtVx | ldStVx | addI | ldF | ldB | stRegs | ldRegs =>
    simp [encodeWord, decodeWord, decodeFamilyF]

/-- Settles O1: the two bytes of an instruction are joined to its word again, which the decoder takes back to the
instruction. -/
theorem decodeOfEncodeIsTheInstruction : Obligations.DecodeOfEncodeIsTheInstruction := by
  unfold Obligations.DecodeOfEncodeIsTheInstruction
  intro i rest
  simp only [encode, bytesOfWord, List.cons_append, List.nil_append, decode, wordOfBytes_bytesOfWord,
    decodeWord_encodeWord]

/-! ## A word whose fixed fields are known -/

section

variable {w : Word} {f : Nibble}

theorem encodeA_of_fieldF (h : fieldF w = f) : encodeA f (fieldNNN w) = w := h ▸ encodeA_fields w

theorem encodeX_of_fieldF (h : fieldF w = f) : encodeX f (fieldX w) (fieldNN w) = w := h ▸ encodeX_fields w

theorem encodeX_of_fieldNN {low : Byte} (h : fieldF w = f ∧ fieldNN w = low) : encodeX f (fieldX w) low = w :=
  h.2 ▸ encodeX_of_fieldF h.1

theorem encodeXY_of_fieldF (h : fieldF w = f) : encodeXY f (fieldX w) (fieldY w) (fieldN w) = w :=
  h ▸ encodeXY_fields w

theorem encodeXY_of_fieldN {n : Nibble} (h : fieldF w = f ∧ fieldN w = n) : encodeXY f (fieldX w) (fieldY w) n = w :=
  h.2 ▸ encodeXY_of_fieldF h.1

end

/-! ## A decoded word is the encoding of what it decodes to -/

section

variable {w : Word} {i : Instr}

theorem encodeWord_of_decodeFamily0 (h : decodeFamily0 w = some i) : encodeWord i = w := by
  unfold decodeFamily0 at h
  split_ifs at h with h1 h2
  · cases h; exact h1.symm
  · cases h; exact h2.symm

theorem encodeWord_of_decodeFamily8 (hF : fieldF w = 0x8#4) (h : decodeFamily8 w = some i) : encodeWord i = w := by
  unfold decodeFamily8 at h
  split at h
  case h_10 => cases h
  all_goals
    next hN => cases h; exact encodeXY_of_fieldN ⟨hF, fieldN_of_toNat hN⟩

theorem encodeWord_of_decodeFamilyE (hF : fieldF w = 0xE#4) (h : decodeFamilyE w = some i) : encodeWord i = w := by
  unfold decodeFamilyE at h
  split at h
  case h_3 => cases h
  all_goals
    next hNN => cases h; exact encodeX_of_fieldNN ⟨hF, fieldNN_of_toNat hNN⟩

theorem encodeWord_of_decodeFamilyF (hF : fieldF w = 0xF#4) (h : decodeFamilyF w = some i) : encodeWord i = w := by
  unfold decodeFamilyF at h
  split at h
  case h_10 => cases h
  all_goals
    next hNN => cases h; exact encodeX_of_fieldNN ⟨hF, fieldNN_of_toNat hNN⟩

/-- One case for each arm of the dispatch on the family nibble (R85). -/
theorem encodeWord_of_decodeWord (h : decodeWord w = some i) : encodeWord i = w := by
  unfold decodeWord at h
  split at h
  case h_1 => exact encodeWord_of_decodeFamily0 h
  case h_2 hF | h_3 hF | h_11 hF | h_12 hF => cases h; exact encodeA_of_fieldF (fieldF_of_toNat hF)
  case h_4 hF | h_5 hF | h_7 hF | h_8 hF | h_13 hF => cases h; exact encodeX_of_fieldF (fieldF_of_toNat hF)
  case h_6 hF | h_10 hF =>
    split_ifs at h with hN
    cases h; exact encodeXY_of_fieldN ⟨fieldF_of_toNat hF, hN⟩
  case h_9 hF => exact encodeWord_of_decodeFamily8 (fieldF_of_toNat hF) h
  case h_14 hF => cases h; exact encodeXY_of_fieldF (fieldF_of_toNat hF)
  case h_15 hF => exact encodeWord_of_decodeFamilyE (fieldF_of_toNat hF) h
  case h_16 =>
    have hF : (fieldF w).toNat = 0xF := by
      have := (fieldF w).isLt
      simp only [imp_false] at *
      omega
    exact encodeWord_of_decodeFamilyF (fieldF_of_toNat hF) h

end

/-- Settles O2, by the arms of the dispatch: each fixes the family nibble and its selector and hands the other fields on. -/
theorem encodeOfDecodedWordIsTheWord : Obligations.EncodeOfDecodedWordIsTheWord := by
  unfold Obligations.EncodeOfDecodedWordIsTheWord
  intro w i h
  exact encodeWord_of_decodeWord h

/-! ## A covered word is the encoding of an instruction of the row -/

/-- The encoder reaches every word the row covers, from an instruction of that row. -/
def OpcodeRow.Encoded (r : OpcodeRow) : Prop := ∀ w, r.covers w = true → ∃ i, rowOf i = r ∧ encodeWord i = w

section

variable {id : String} {v : Word}

/-- A row that fixes the whole word. -/
theorem encoded_FFFF (i : Instr) (hrow : rowOf i = ⟨id, v, 0xFFFF#16⟩) (henc : encodeWord i = v) :
    (OpcodeRow.mk id v 0xFFFF#16).Encoded := by
  intro w h
  rw [covers_FFFF] at h
  exact ⟨i, hrow, henc.trans h.symm⟩

/-- A row of format `A`. -/
theorem encoded_F000_A (mk : Addr12 → Instr) (hv : v &&& 0xF000#16 = v)
    (hrow : ∀ nnn, rowOf (mk nnn) = ⟨id, v, 0xF000#16⟩) (henc : ∀ nnn, encodeWord (mk nnn) = encodeA (fieldF v) nnn) :
    (OpcodeRow.mk id v 0xF000#16).Encoded := by
  intro w h
  rw [covers_F000 id w hv] at h
  exact ⟨mk (fieldNNN w), hrow _, (henc _).trans (encodeA_of_fieldF h)⟩

/-- A row of format `XI`. -/
theorem encoded_F000_XI (mk : RegIx → Byte → Instr) (hv : v &&& 0xF000#16 = v)
    (hrow : ∀ x nn, rowOf (mk x nn) = ⟨id, v, 0xF000#16⟩)
    (henc : ∀ x nn, encodeWord (mk x nn) = encodeX (fieldF v) x nn) :
    (OpcodeRow.mk id v 0xF000#16).Encoded := by
  intro w h
  rw [covers_F000 id w hv] at h
  exact ⟨mk (fieldX w) (fieldNN w), hrow _ _, (henc _ _).trans (encodeX_of_fieldF h)⟩

/-- A row of format `XYN`. -/
theorem encoded_F000_XYN (mk : RegIx → RegIx → Fin 16 → Instr) (hv : v &&& 0xF000#16 = v)
    (hrow : ∀ x y n, rowOf (mk x y n) = ⟨id, v, 0xF000#16⟩)
    (henc : ∀ x y n, encodeWord (mk x y n) = encodeXY (fieldF v) x y (BitVec.ofFin n)) :
    (OpcodeRow.mk id v 0xF000#16).Encoded := by
  intro w h
  rw [covers_F000 id w hv] at h
  exact ⟨mk (fieldX w) (fieldY w) (fieldRows w), hrow _ _ _, (henc _ _ _).trans (encodeXY_of_fieldF h)⟩

/-- A row of format `XY`. -/
theorem encoded_F00F (mk : RegIx → RegIx → Instr) (hv : v &&& 0xF00F#16 = v)
    (hrow : ∀ x y, rowOf (mk x y) = ⟨id, v, 0xF00F#16⟩)
    (henc : ∀ x y, encodeWord (mk x y) = encodeXY (fieldF v) x y (fieldN v)) :
    (OpcodeRow.mk id v 0xF00F#16).Encoded := by
  intro w h
  rw [covers_F00F id w hv] at h
  exact ⟨mk (fieldX w) (fieldY w), hrow _ _, (henc _ _).trans (encodeXY_of_fieldN h)⟩

/-- A row of format `XS`. -/
theorem encoded_F0FF (mk : RegIx → Instr) (hv : v &&& 0xF0FF#16 = v)
    (hrow : ∀ x, rowOf (mk x) = ⟨id, v, 0xF0FF#16⟩)
    (henc : ∀ x, encodeWord (mk x) = encodeX (fieldF v) x (fieldNN v)) :
    (OpcodeRow.mk id v 0xF0FF#16).Encoded := by
  intro w h
  rw [covers_F0FF id w hv] at h
  exact ⟨mk (fieldX w), hrow _, (henc _).trans (encodeX_of_fieldNN h)⟩

end

theorem encoded_of_mem_opcodeRowsPlain : ∀ r ∈ opcodeRowsPlain, r.Encoded := by
  simp only [opcodeRowsPlain, List.forall_mem_cons]
  exact ⟨encoded_FFFF .cls rfl rfl, encoded_FFFF .ret rfl rfl,
    encoded_F000_A .jp rfl (fun _ => rfl) (fun _ => rfl), encoded_F000_A .call rfl (fun _ => rfl) (fun _ => rfl),
    encoded_F000_XI .seImm rfl (fun _ _ => rfl) (fun _ _ => rfl),
    encoded_F000_XI .sneImm rfl (fun _ _ => rfl) (fun _ _ => rfl),
    encoded_F000_XI .ldImm rfl (fun _ _ => rfl) (fun _ _ => rfl),
    encoded_F000_XI .addImm rfl (fun _ _ => rfl) (fun _ _ => rfl),
    encoded_F000_A .ldI rfl (fun _ => rfl) (fun _ => rfl), encoded_F000_A .jpV0 rfl (fun _ => rfl) (fun _ => rfl),
    encoded_F000_XI .rnd rfl (fun _ _ => rfl) (fun _ _ => rfl), List.forall_mem_nil _⟩

theorem encoded_of_mem_opcodeRowsTwoRegs : ∀ r ∈ opcodeRowsTwoRegs, r.Encoded := by
  simp only [opcodeRowsTwoRegs, List.forall_mem_cons]
  exact ⟨encoded_F00F .seReg rfl (fun _ _ => rfl) (fun _ _ => rfl),
    encoded_F00F .ldReg rfl (fun _ _ => rfl) (fun _ _ => rfl),
    encoded_F00F .orReg rfl (fun _ _ => rfl) (fun _ _ => rfl),
    encoded_F00F .andReg rfl (fun _ _ => rfl) (fun _ _ => rfl),
    encoded_F00F .xorReg rfl (fun _ _ => rfl) (fun _ _ => rfl),
    encoded_F00F .addReg rfl (fun _ _ => rfl) (fun _ _ => rfl),
    encoded_F00F .sub rfl (fun _ _ => rfl) (fun _ _ => rfl),
    encoded_F00F .shr rfl (fun _ _ => rfl) (fun _ _ => rfl),
    encoded_F00F .subn rfl (fun _ _ => rfl) (fun _ _ => rfl),
    encoded_F00F .shl rfl (fun _ _ => rfl) (fun _ _ => rfl),
    encoded_F00F .sneReg rfl (fun _ _ => rfl) (fun _ _ => rfl),
    encoded_F000_XYN .drw rfl (fun _ _ _ => rfl) (fun _ _ _ => rfl), List.forall_mem_nil _⟩

theorem encoded_of_mem_opcodeRowsSelected : ∀ r ∈ opcodeRowsSelected, r.Encoded := by
  simp only [opcodeRowsSelected, List.forall_mem_cons]
  exact ⟨encoded_F0FF .skp rfl (fun _ => rfl) (fun _ => rfl), encoded_F0FF .sknp rfl (fun _ => rfl) (fun _ => rfl),
    encoded_F0FF .ldVxDt rfl (fun _ => rfl) (fun _ => rfl), encoded_F0FF .ldVxK rfl (fun _ => rfl) (fun _ => rfl),
    encoded_F0FF .ldDtVx rfl (fun _ => rfl) (fun _ => rfl), encoded_F0FF .ldStVx rfl (fun _ => rfl) (fun _ => rfl),
    encoded_F0FF .addI rfl (fun _ => rfl) (fun _ => rfl), encoded_F0FF .ldF rfl (fun _ => rfl) (fun _ => rfl),
    encoded_F0FF .ldB rfl (fun _ => rfl) (fun _ => rfl), encoded_F0FF .stRegs rfl (fun _ => rfl) (fun _ => rfl),
    encoded_F0FF .ldRegs rfl (fun _ => rfl) (fun _ => rfl), List.forall_mem_nil _⟩

theorem encoded_of_mem_opcodeRows {r : OpcodeRow} (hr : r ∈ opcodeRows) : r.Encoded := by
  rw [opcodeRows, List.mem_append, List.mem_append] at hr
  rcases hr with (hr | hr) | hr
  · exact encoded_of_mem_opcodeRowsPlain r hr
  · exact encoded_of_mem_opcodeRowsTwoRegs r hr
  · exact encoded_of_mem_opcodeRowsSelected r hr

/-! ## The opcode map -/

/-- A row selects the instruction of every word it covers. -/
theorem decodeWord_of_covers {r : OpcodeRow} {w : Word} (hr : r ∈ opcodeRows) (h : r.covers w = true) :
    ∃ i, decodeWord w = some i ∧ rowOf i = r := by
  obtain ⟨i, hi, rfl⟩ := encoded_of_mem_opcodeRows hr w h
  exact ⟨i, decodeWord_encodeWord i, hi⟩

theorem Laws.EncodedWordIsCovered.statement : ∀ i, Statement i
  | .cls => cls
  | .ret => ret
  | .jp _ => jp _
  | .call _ => call _
  | .seImm _ _ => seImm _ _
  | .sneImm _ _ => sneImm _ _
  | .seReg _ _ => seReg _ _
  | .ldImm _ _ => ldImm _ _
  | .addImm _ _ => addImm _ _
  | .ldReg _ _ => ldReg _ _
  | .orReg _ _ => orReg _ _
  | .andReg _ _ => andReg _ _
  | .xorReg _ _ => xorReg _ _
  | .addReg _ _ => addReg _ _
  | .sub _ _ => sub _ _
  | .shr _ _ => shr _ _
  | .subn _ _ => subn _ _
  | .shl _ _ => shl _ _
  | .sneReg _ _ => sneReg _ _
  | .ldI _ => ldI _
  | .jpV0 _ => jpV0 _
  | .rnd _ _ => rnd _ _
  | .drw _ _ _ => drw _ _ _
  | .skp _ => skp _
  | .sknp _ => sknp _
  | .ldVxDt _ => ldVxDt _
  | .ldVxK _ => ldVxK _
  | .ldDtVx _ => ldDtVx _
  | .ldStVx _ => ldStVx _
  | .addI _ => addI _
  | .ldF _ => ldF _
  | .ldB _ => ldB _
  | .stRegs _ => stRegs _
  | .ldRegs _ => ldRegs _

theorem rowOf_covers_of_decodeWord {w : Word} {i : Instr} (h : decodeWord w = some i) :
    rowOf i ∈ opcodeRows ∧ (rowOf i).covers w = true :=
  encodeWord_of_decodeWord h ▸ Laws.EncodedWordIsCovered.statement i

/-- Settles O3: a word that decodes is the encoding of its instruction, which that instruction's row covers, and a word
that a row covers is the encoding of an instruction of that row. The illegal words are what both leave. -/
theorem decoderFollowsTheOpcodeMap : Obligations.DecoderFollowsTheOpcodeMap := by
  unfold Obligations.DecoderFollowsTheOpcodeMap
  intro w
  refine ⟨fun i => rowOf_covers_of_decodeWord, fun r => decodeWord_of_covers, fun hnone r hr => ?_, fun hall => ?_⟩
  · by_contra hc
    obtain ⟨i, hi, -⟩ := decodeWord_of_covers hr (Bool.of_not_eq_false hc)
    rw [hnone] at hi
    cases hi
  · by_contra hs
    obtain ⟨i, hi⟩ := Option.ne_none_iff_exists'.1 hs
    obtain ⟨hmem, hcov⟩ := rowOf_covers_of_decodeWord hi
    rw [hall _ hmem] at hcov
    cases hcov

/-- Two rows that cover one word are the row of the one instruction it decodes to. -/
theorem row_eq_of_covers {r q : OpcodeRow} {w : Word} (hr : r ∈ opcodeRows) (hq : q ∈ opcodeRows)
    (hrw : r.covers w = true) (hqw : q.covers w = true) : r = q := by
  obtain ⟨i, hi, rfl⟩ := decodeWord_of_covers hr hrw
  obtain ⟨j, hj, rfl⟩ := decodeWord_of_covers hq hqw
  rw [hi] at hj
  cases hj
  rfl

/-- Settles O4: the rows and the rows of each family are counted, and a word decodes to one instruction only, so one row at
most covers it. -/
theorem opcodeRowsAreDisjoint : Obligations.OpcodeRowsAreDisjoint := by
  unfold Obligations.OpcodeRowsAreDisjoint
  exact ⟨rfl, by decide, fun w r hr q hq => row_eq_of_covers hr hq⟩

/-- Settles O5: each word is decoded as it stands. -/
theorem attestedWordsDecode : Obligations.AttestedWordsDecode := by
  unfold Obligations.AttestedWordsDecode
  decide

/-- Settles O6: the fetched word is the two bytes at `pc` joined, the byte at `pc` above (R62). -/
theorem stepRunsTheDecodedInstruction : Obligations.StepRunsTheDecodedInstruction := by
  unfold Obligations.StepRunsTheDecodedInstruction
  intro s i hpc hd
  exact Machine.step_of_decoded hpc hd

end Sys2Proof
end

section
/-! PROOFS. Load, add immediate, arithmetic and logic (R110 to R123). Each of these instructions ends in one of two states:
its result in `VX`, or its result in `VX` and then a flag in VF (R23). What the two states hold is said once; an instruction
then adds its result and its flag as numbers. -/

namespace Sys2Proof.Machine

variable {s : State} {i : Instr} {x : RegIx}

/-! ## The word of an instruction -/

/-- The encoding of an instruction, and no other word, decodes to it. -/
theorem decodeWord_eq_some_iff {w : Word} : decodeWord w = some i ↔ w = encodeWord i :=
  ⟨fun h => (encodeWord_of_decodeWord h).symm, fun h => h ▸ decodeWord_encodeWord i⟩

/-! ## The result in `VX` -/

/-- An instruction that writes one register (R22): what each register then holds, and the frame. -/
theorem exec_writes_reg {b : Byte} (he : exec i s = .next (s.setReg x b)) :
    ∃ t, exec i s = .next t ∧ (∀ r, t.reg r = if r = x then b else s.reg r) ∧
      t = { s with v := t.v } ∧ SameMemory s t :=
  ⟨_, he, fun r => reg_setReg s x r b, rfl, byte_setReg s x b⟩

/-- Settles O16: the only word of 6XNN is its encoding, and its one write is `NN` to `VX`. -/
theorem loadImmediateWritesVx : Obligations.LoadImmediateWritesVx := by
  unfold Obligations.LoadImmediateWritesVx
  intro x nn s
  exact ⟨fun w => decodeWord_eq_some_iff, exec_writes_reg rfl⟩

/-- Settles O17: the one write of 7XNN is a sum of bytes, which wraps at 256. -/
theorem addImmediateWrapsWithoutFlag : Obligations.AddImmediateWrapsWithoutFlag := by
  unfold Obligations.AddImmediateWrapsWithoutFlag
  intro x nn s
  obtain ⟨t, he, hreg, hframe⟩ := exec_writes_reg (i := .addImm x nn) (s := s) rfl
  refine ⟨t, he, fun r => ?_, hframe⟩
  rw [hreg, apply_ite BitVec.toNat, BitVec.toNat_add]

/-- Copy, OR, AND and XOR write to `VX` a byte that is computed bit by bit (R113 to R116). -/
theorem exec_bitwise {y : RegIx} {f : Bool → Bool → Bool}
    (h : (i = .ldReg x y ∧ f = fun _ b => b) ∨ (i = .orReg x y ∧ f = or) ∨ (i = .andReg x y ∧ f = and) ∨
      (i = .xorReg x y ∧ f = xor)) :
    ∃ b : Byte, exec i s = .next (s.setReg x b) ∧
      ∀ k < 8, b.getLsbD k = f ((s.reg x).getLsbD k) ((s.reg y).getLsbD k) := by
  rcases h with ⟨rfl, rfl⟩ | ⟨rfl, rfl⟩ | ⟨rfl, rfl⟩ | ⟨rfl, rfl⟩
  · exact ⟨_, rfl, fun _ _ => rfl⟩
  · exact ⟨_, rfl, fun _ _ => BitVec.getLsbD_or⟩
  · exact ⟨_, rfl, fun _ _ => BitVec.getLsbD_and⟩
  · exact ⟨_, rfl, fun _ _ => BitVec.getLsbD_xor⟩

/-- Settles O18: the byte computed bit by bit is what `VX` then holds, even where `VX` is also an operand. -/
theorem copyAndLogicWriteVx : Obligations.CopyAndLogicWriteVx := by
  unfold Obligations.CopyAndLogicWriteVx
  intro x y s i f h
  obtain ⟨b, hb, hbits⟩ := exec_bitwise h
  obtain ⟨t, he, hreg, hframe⟩ := exec_writes_reg hb
  refine ⟨t, he, fun r hr => (hreg r).trans (if_neg hr), ?_, hframe⟩
  rwa [hreg x, if_pos rfl]

/-! ## The result in `VX`, then a flag in VF -/

/-- The flag is written last, so it stands in VF even where VF is the destination (R23). -/
theorem reg_setRegFlag (s : State) (x r : RegIx) (b : Byte) (f : Bool) :
    (s.setRegFlag x b f).reg r = if r = 15 then flagByte f else if r = x then b else s.reg r := by
  rw [setRegFlag_eq, reg_setReg, reg_setReg, flagReg]

/-- An instruction that writes a result and then a flag: what each register then holds, as a number, and the frame. -/
theorem exec_writes_regFlag {b : Byte} {f : Bool} {result flag : Nat} (he : exec i s = .next (s.setRegFlag x b f))
    (hb : b.toNat = result) (hf : (flagByte f).toNat = flag) :
    ∃ t, exec i s = .next t ∧
      (∀ r, (t.reg r).toNat = if r = 15 then flag else if r = x then result else (s.reg r).toNat) ∧
      t = { s with v := t.v } ∧ SameMemory s t := by
  refine ⟨_, he, fun r => ?_, rfl, fun _ => rfl⟩
  rw [reg_setRegFlag, apply_ite BitVec.toNat, apply_ite BitVec.toNat, hb, hf]

/-! ### The flags as numbers (R34, R37) -/

theorem toNat_flagByte_decide (p : Prop) [Decidable p] : (flagByte (decide p)).toNat = if p then 1 else 0 := by
  simp only [toNat_flagByte, decide_eq_true_eq]

/-- The flag of 8XY6 is the remainder of the halving (R119). -/
theorem toNat_flagByte_bitOutRight (a : Byte) : (flagByte (bitOutRight a)).toNat = a.toNat % 2 := by
  rw [bitOutRight, BitVec.getLsbD, Nat.testBit_zero, toNat_flagByte_decide]
  split <;> omega

/-- The flag of 8XYE is the multiple of 256 that the doubling loses (R121). -/
theorem toNat_flagByte_bitOutLeft (a : Byte) : (flagByte (bitOutLeft a)).toNat = a.toNat / 128 := by
  have ha : a.toNat < 256 := a.isLt
  rw [bitOutLeft, BitVec.getLsbD, Nat.testBit_eq_decide_div_mod_eq, toNat_flagByte_decide]
  split <;> omega

/-! ### The results as numbers -/

theorem toNat_byte_sub (a b : Byte) : (a - b).toNat = (a.toNat + 256 - b.toNat) % 256 := by
  have hb : b.toNat < 256 := b.isLt
  rw [BitVec.toNat_sub]
  omega

theorem toNat_byte_shiftRight_one (a : Byte) : (a >>> 1).toNat = a.toNat / 2 := by
  rw [BitVec.toNat_ushiftRight, Nat.shiftRight_one]

theorem toNat_byte_shiftLeft_one (a : Byte) : (a <<< 1).toNat = 2 * a.toNat % 256 := by
  rw [BitVec.toNat_shiftLeft, Nat.shiftLeft_eq, Nat.mul_comm]

/-! ### The five instructions -/

/-- Settles O19: the sum of the bytes wraps at 256, and the carry is what that loses. -/
theorem addRegisterSumsAndCarries : Obligations.AddRegisterSumsAndCarries := by
  unfold Obligations.AddRegisterSumsAndCarries
  intro x y s
  exact exec_writes_regFlag rfl (BitVec.toNat_add _ _) (toNat_flagByte_decide _)

/-- Settles O20: the difference wraps at 256 exactly where the flag is 0. -/
theorem subtractWrapsAndFlagsNoBorrow : Obligations.SubtractWrapsAndFlagsNoBorrow := by
  unfold Obligations.SubtractWrapsAndFlagsNoBorrow
  intro x y s
  exact exec_writes_regFlag rfl (toNat_byte_sub _ _) (toNat_flagByte_decide _)

/-- Settles O21: 8XY5 with the operands exchanged, but the same destination. -/
theorem reverseSubtractWrapsAndFlagsNoBorrow : Obligations.ReverseSubtractWrapsAndFlagsNoBorrow := by
  unfold Obligations.ReverseSubtractWrapsAndFlagsNoBorrow
  intro x y s
  exact exec_writes_regFlag rfl (toNat_byte_sub _ _) (toNat_flagByte_decide _)

/-- Settles O22: quotient and remainder of `VX` by 2. -/
theorem shiftRightHalvesInPlace : Obligations.ShiftRightHalvesInPlace := by
  unfold Obligations.ShiftRightHalvesInPlace
  intro x y s
  exact exec_writes_regFlag rfl (toNat_byte_shiftRight_one _) (toNat_flagByte_bitOutRight _)

/-- Settles O23: remainder and quotient by 256 of twice `VX`. -/
theorem shiftLeftDoublesInPlace : Obligations.ShiftLeftDoublesInPlace := by
  unfold Obligations.ShiftLeftDoublesInPlace
  intro x y s
  exact exec_writes_regFlag rfl (toNat_byte_shiftLeft_one _) (toNat_flagByte_bitOutLeft _)

end Sys2Proof.Machine
end

section
/-! PROOFS. The skips (R130 to R135). What the skip mechanism does to `pc` is said once, as a number; each skip is that
mechanism on a test, and the test decides the skip's condition. -/

namespace Sys2Proof.Machine

theorem toNat_pc_skipIf (s : State) (b : Bool) :
    (s.skipIf b).pc.toNat = (s.pc.toNat + if b then 2 else 0) % 65536 := by
  rw [skipIf_eq, jumpTo_pc, BitVec.toNat_add, apply_ite BitVec.toNat]
  rfl

/-- An instruction that is the skip mechanism (R130) on a test `b` of the condition `c`: what `pc` then is, and the
frame. -/
theorem exec_skips {s : State} {i : Instr} {b : Bool} {c : Prop} [Decidable c] (he : exec i s = .next (s.skipIf b))
    (hb : b = true ↔ c) :
    ∃ t, exec i s = .next t ∧ t.pc.toNat = (s.pc.toNat + if c then 2 else 0) % 65536 ∧
      t = { s with pc := t.pc } ∧ SameMemory s t := by
  refine ⟨_, he, ?_, ?_⟩
  · simp only [toNat_pc_skipIf, hb]
  · rw [skipIf_eq]
    exact ⟨rfl, byte_jumpTo s _⟩

/-- Settles O25: 3XNN and 5XY0 test whether two bytes are equal, 4XNN and 9XY0 whether they differ. -/
theorem registerSkipsMovePcByTwoOrNothing : Obligations.RegisterSkipsMovePcByTwoOrNothing := by
  unfold Obligations.RegisterSkipsMovePcByTwoOrNothing
  intro i s c _ h
  rcases h with ⟨x, nn, rfl, hc⟩ | ⟨x, nn, rfl, hc⟩ | ⟨x, y, rfl, hc⟩ | ⟨x, y, rfl, hc⟩
  · exact exec_skips rfl (beq_iff_eq.trans hc.symm)
  · exact exec_skips rfl (bne_iff_ne.trans hc.symm)
  · exact exec_skips rfl (beq_iff_eq.trans hc.symm)
  · exact exec_skips rfl (bne_iff_ne.trans hc.symm)

end Sys2Proof.Machine
end

section
/-! PROOFS. Jump, call and return (R140 to R146). The jumps are `jumpTo` on a target that is read as a number; call and return
are taken from the laws of the stack, first as instructions and then as whole steps, two of which come back (R145). -/

namespace Sys2Proof.Machine

variable {s : State} {nnn : Addr12}

/-! ## The two jumps -/

theorem toNat_zextAddr (nnn : Addr12) : (zextAddr nnn).toNat = nnn.toNat :=
  BitVec.toNat_setWidth_of_le (by decide)

theorem toNat_zextByte (b : Byte) : (zextByte b).toNat = b.toNat :=
  BitVec.toNat_setWidth_of_le (by decide)

/-- The sum of BNNN is at most 0x10FE, so it does not wrap (R144). -/
theorem toNat_zextAddr_add_zextByte (nnn : Addr12) (b : Byte) :
    (zextAddr nnn + zextByte b).toNat = nnn.toNat + b.toNat := by
  have hn : nnn.toNat < 4096 := nnn.isLt
  have hb : b.toNat < 256 := b.isLt
  rw [BitVec.toNat_add, toNat_zextAddr, toNat_zextByte, Nat.mod_eq_of_lt (by omega)]

/-- An instruction that writes `pc` alone: what `pc` then is, and the frame. -/
theorem exec_jumps {i : Instr} {w : Word} {target : Nat} (he : exec i s = .next (s.jumpTo w)) (hw : w.toNat = target) :
    ∃ t, exec i s = .next t ∧ t.pc.toNat = target ∧ t = { s with pc := t.pc } ∧ SameMemory s t :=
  ⟨_, he, hw, rfl, byte_jumpTo s w⟩

/-- Settles O26: the only word of 1NNN is its encoding, and its target is `NNN` widened with zeros. -/
theorem jumpSetsPc : Obligations.JumpSetsPc := by
  unfold Obligations.JumpSetsPc
  intro nnn s
  exact ⟨fun w => decodeWord_eq_some_iff, exec_jumps rfl (toNat_zextAddr nnn)⟩

/-- Settles O27: BNNN jumps to a sum that does not wrap. -/
theorem offsetJumpAddsV0 : Obligations.OffsetJumpAddsV0 := by
  unfold Obligations.OffsetJumpAddsV0
  intro nnn s
  exact exec_jumps rfl (toNat_zextAddr_add_zextByte nnn (s.reg 0))

/-! ## Call and return -/

/-- A push writes the first free slot and no other (R27, R142). -/
theorem getElem_stack_set (k : Vector Word 16) {n : Nat} (hn : n < 16) (w : Word) (j : Fin 16) :
    (k.set n w hn)[j.val] = if j.val = n then w else k[j.val] := by
  simp only [Vector.getElem_set, eq_comm]

/-- Settles O28: a push writes the first free slot, and a full stack raises the error on the state it was given. -/
theorem callPushesTheReturnAddress : Obligations.CallPushesTheReturnAddress := by
  unfold Obligations.CallPushesTheReturnAddress
  intro nnn s
  refine ⟨fun hfree => ?_, fun hfull => ?_, fun hfull => ?_⟩
  · exact ⟨_, exec_call_free hfree, rfl, toNat_zextAddr nnn, getElem_stack_set s.stack hfree s.pc, rfl, fun _ => rfl⟩
  · rw [exec_call_full hfull]
    exact raise_halt _
  · rw [exec_call_full hfull]
    exact raise_goOn _

/-- Settles O29: a pop reads the newest occupied slot, and an empty stack raises the error on the state it was given. -/
theorem returnPopsTheReturnAddress : Obligations.ReturnPopsTheReturnAddress := by
  unfold Obligations.ReturnPopsTheReturnAddress
  intro s
  refine ⟨fun j hj => ?_, fun hempty => ?_, fun hempty => ?_⟩
  · exact ⟨_, exec_ret_occupied hj, rfl, rfl, rfl, fun _ => rfl⟩
  · rw [exec_ret_empty hempty]
    exact raise_halt _
  · rw [exec_ret_empty hempty]
    exact raise_goOn _

/-! ## A call and its return as steps -/

/-- The step at a call with a free slot: the address after the call is pushed, and the target is next (R142). -/
theorem step_call (hpc : s.pc.toNat ≤ 0xFFE) (hd : decodeWord s.fetchWord = some (.call nnn)) (hsp : s.sp.val < 16) :
    step s = .next (endTurn { beginStep s with
      stack := s.stack.set s.sp.val (s.pc + 2#16), sp := ⟨s.sp.val + 1, Nat.succ_lt_succ hsp⟩, pc := zextAddr nnn }) := by
  rw [step_of_decoded hpc hd, exec_call_free (s := (beginStep s).advance) hsp]
  rfl

/-- The step at a return with an occupied slot: the newest return address is next (R143). -/
theorem step_ret {a : Nat} {j : Fin 16} (hpc : s.pc.toNat = a) (ha : a ≤ 0xFFE)
    (hd : decodeWord (s.byte a ++ s.byte (a + 1)) = some .ret) (hj : s.sp.val = j.val + 1) :
    step s = .next (endTurn { beginStep s with sp := j.castSucc, pc := s.stack[j.val] }) := by
  rw [← fetchWord_of_pc hpc] at hd
  rw [step_of_decoded (hpc.trans_le ha) hd, exec_ret_occupied (s := (beginStep s).advance) hj]
  rfl

/-- Settles O30: the call stores no byte, so the return at its target is what the second step fetches, and it pops the slot
that the first step pushed. -/
theorem callThenReturnComesBack : Obligations.CallThenReturnComesBack := by
  unfold Obligations.CallThenReturnComesBack
  intro s nnn hpc hd hsp hn hret
  have hstack := getElem_stack_set s.stack hsp (s.pc + 2#16)
  have hpushed := (hstack ⟨s.sp.val, hsp⟩).trans (if_pos rfl)
  refine ⟨_, _, step_call hpc hd hsp, step_ret (j := ⟨s.sp.val, hsp⟩) (toNat_zextAddr nnn) hn ?_ rfl,
    hpushed, rfl, hstack, rfl⟩
  exact hret

end Sys2Proof.Machine
end

section
/-! PROOFS. Random (R150 to R152). CXNN writes the draw masked with `NN`, and the masked bytes are the bit-subsets of `NN`:
masking twice is masking once, and a subset is produced by itself as the draw. -/

namespace Sys2Proof.Machine

/-- The one write of CXNN is the step's draw masked with `NN` (R151). -/
theorem exec_rnd (x : RegIx) (nn : Byte) (s : State) :
    exec (.rnd x nn) s = .next (s.setReg x (s.hostTurn.rnd &&& nn)) := rfl

/-- Settles O32: a bit of the masked draw is set where it is set in the draw and in `NN`. -/
theorem randomMasksTheDraw : Obligations.RandomMasksTheDraw := by
  unfold Obligations.RandomMasksTheDraw
  intro x nn s
  obtain ⟨t, he, hreg, hframe⟩ := exec_writes_reg (exec_rnd x nn s)
  refine ⟨t, he, fun r hr => (hreg r).trans (if_neg hr), fun k _ => ?_, hframe⟩
  rw [hreg x, if_pos rfl, BitVec.getLsbD_and, Bool.and_comm]

/-- After CXNN with the draw `d`, `VX` holds `v` exactly when `v` is `d` masked with `NN`. -/
theorem exec_rnd_gives_iff (x : RegIx) (nn v d : Byte) (s : State) (h : HostTurn) (rest : List HostTurn) :
    (∃ t, exec (.rnd x nn) { s with schedule := { h with rnd := d } :: rest } = .next t ∧ t.reg x = v) ↔
      d &&& nn = v := by
  obtain ⟨t, he, hreg, -⟩ := exec_writes_reg (exec_rnd x nn { s with schedule := { h with rnd := d } :: rest })
  have hx : t.reg x = d &&& nn := by rw [hreg x, if_pos rfl, hostTurn_cons]
  rw [he, ← hx]
  exact ⟨fun ⟨t', ht, hv⟩ => by cases ht; exact hv, fun hv => ⟨t, rfl, hv⟩⟩

/-- The masked bytes are the bit-subsets of the mask (R152). -/
theorem exists_and_eq_iff (nn v : Byte) : (∃ d, d &&& nn = v) ↔ v &&& nn = v := by
  constructor
  · rintro ⟨d, rfl⟩
    rw [BitVec.and_assoc, BitVec.and_self]
  · exact fun hsub => ⟨v, hsub⟩

/-- A bit-subset of a byte does not exceed it (R152). -/
theorem toNat_le_of_and_eq {nn v : Byte} (hsub : v &&& nn = v) : v.toNat ≤ nn.toNat :=
  calc v.toNat = v.toNat &&& nn.toNat := by rw [← BitVec.toNat_and, hsub]
    _ ≤ nn.toNat := Nat.and_le_right

/-- Settles O33: the results are the masked draws, hence the bit-subsets of `NN`. -/
theorem randomReachesExactlyTheSubsets : Obligations.RandomReachesExactlyTheSubsets := by
  unfold Obligations.RandomReachesExactlyTheSubsets
  intro x nn v s h rest
  refine ⟨?_, toNat_le_of_and_eq⟩
  rw [← exists_and_eq_iff]
  exact exists_congr fun d => exec_rnd_gives_iff x nn v d s h rest

end Sys2Proof.Machine
end

section
/-! PROOFS. Clear screen and draw (R155 to R163). A drawing is seen as the list of cells its set bits fall on: a cell is
toggled once for every time it stands in the list, and on a display of at least 8 by 15 it stands there at most once, so
that VF and the commands are read off the display before the drawing. -/

namespace Sys2Proof.Machine

variable {s u : State} {x y : RegIx} {n : Nat} {k : Fin 16} {q rc : Nat × Nat}

/-! ## The display's writers -/

/-- Settles O34: 00E0 is the encoding and no other word, and a display without a listed cell is all 0. -/
theorem clearScreenClearsEveryCell : Obligations.ClearScreenClearsEveryCell := by
  unfold Obligations.ClearScreenClearsEveryCell
  refine ⟨fun w => decodeWord_eq_some_iff, fun s => ⟨_, rfl, fun q => ?_, rfl, rfl, fun _ => rfl⟩⟩
  exact Bool.and_false _

/-- Settles O38: every effect but a clear's and a draw's leaves the display and the commands as they were. -/
theorem onlyDisplayInstructionsTouchTheDisplay : Obligations.OnlyDisplayInstructionsTouchTheDisplay := by
  unfold Obligations.OnlyDisplayInstructionsTouchTheDisplay
  intro i s t h hne
  cases exec_effect h
  case cls => exact .inl rfl
  case draw x y n => exact .inr ⟨x, y, n, rfl⟩
  all_goals exact (hne.elim (· rfl) (· rfl)).elim

/-! ## The cells of the grid -/

/-- The cell lies on the display. -/
def State.OnDisplay (s : State) (q : Nat × Nat) : Prop := q.1 < s.params.displayW ∧ q.2 < s.params.displayH

theorem pixel_eq_contains (hq : s.OnDisplay q) : s.pixel q = s.disp.contains (Display.cell s.params q.1 q.2) := by
  rw [State.pixel, Display.pixel, decide_eq_true hq.1, decide_eq_true hq.2, Bool.and_self, Bool.true_and]

theorem cell_beq_cell {r : Nat × Nat} (hq : s.OnDisplay q) (hr : s.OnDisplay r) :
    (Display.cell s.params q.1 q.2 == Display.cell s.params r.1 r.2) = (q == r) := by
  rw [Bool.eq_iff_iff, beq_iff_eq, beq_iff_eq, cell_inj hq.1 hr.1, Prod.ext_iff]

/-- A sprite wraps at both edges, so it lies on any display that has a cell (R157). -/
theorem onDisplay_spriteCell (hw : 0 < s.params.displayW) (hh : 0 < s.params.displayH) (x y : RegIx) (rc : Nat × Nat) :
    s.OnDisplay (s.spriteCell x y rc) := ⟨Nat.mod_lt _ hw, Nat.mod_lt _ hh⟩

/-! ## The offsets of a sprite -/

theorem mem_spriteOffsets : rc ∈ spriteOffsets n ↔ rc.1 < n ∧ rc.2 < 8 := by
  rw [← List.mem_range, ← List.mem_range]
  exact List.mem_product

theorem nodup_spriteOffsets (n : Nat) : (spriteOffsets n).Nodup := List.nodup_range.product List.nodup_range

theorem eq_of_add_mod_eq {a b c m : Nat} (hb : b < m) (hc : c < m) (h : (a + b) % m = (a + c) % m) : b = c :=
  (Nat.ModEq.add_left_cancel' a h).eq_of_lt_of_lt hb hc

/-- On a display at least as large as the sprite no two offsets fall on the same cell. -/
theorem spriteCell_injOn (hw : 8 ≤ s.params.displayW) (hh : n ≤ s.params.displayH) {a b : Nat × Nat}
    (ha : a ∈ spriteOffsets n) (hb : b ∈ spriteOffsets n) (h : s.spriteCell x y a = s.spriteCell x y b) :
    a = b := by
  obtain ⟨ha1, ha2⟩ := mem_spriteOffsets.1 ha
  obtain ⟨hb1, hb2⟩ := mem_spriteOffsets.1 hb
  obtain ⟨hcol, hrow⟩ := Prod.mk.inj h
  exact Prod.ext (eq_of_add_mod_eq (by omega) (by omega) hrow) (eq_of_add_mod_eq (by omega) (by omega) hcol)

/-! ## The cells a drawing plots -/

/-- The cells that the set bits of the sprite at `I` fall on, in drawing order (R156 to R158). -/
def State.plotted (s : State) (x y : RegIx) (n : Nat) : List (Nat × Nat) :=
  ((spriteOffsets n).filter s.spriteBit).map (s.spriteCell x y)

theorem any_plotted (f : Nat × Nat → Bool) :
    (s.plotted x y n).any f = (spriteOffsets n).any (fun rc => s.spriteBit rc && f (s.spriteCell x y rc)) := by
  rw [State.plotted, List.any_map, List.any_filter]; rfl

theorem count_plotted (q : Nat × Nat) :
    (s.plotted x y n).count q = (spriteOffsets n).countP (fun rc => s.spriteBit rc && s.spriteCell x y rc == q) := by
  rw [State.plotted, List.count_eq_countP, List.countP_map, List.countP_filter]
  exact List.countP_congr fun rc _ => by rw [Bool.and_comm]; rfl

theorem drawn_eq_foldl (s : State) (x y : RegIx) (n : Nat) :
    s.drawn x y n =
      (s.plotted x y n).foldl (Canvas.plot s.params) { disp := s.disp, hit := false, commands := [] } := by
  rw [State.drawn, drawSprite, State.bytesAtIndex, List.range_eq_range', spriteCells_eq, ← List.range_eq_range']
  rfl

theorem onDisplay_of_mem_plotted (hw : 0 < s.params.displayW) (hh : 0 < s.params.displayH)
    (hq : q ∈ s.plotted x y n) : s.OnDisplay q := by
  obtain ⟨rc, -, rfl⟩ := List.mem_map.1 hq
  exact onDisplay_spriteCell hw hh x y rc

/-- A sprite has at most 15 rows, so on a display of at least 8 by 15 no cell is plotted twice (R159). -/
theorem nodup_plotted (hw : 8 ≤ s.params.displayW) (hh : 15 ≤ s.params.displayH) : (s.plotted x y k.val).Nodup :=
  ((nodup_spriteOffsets k.val).filter _).map_on fun _ ha _ hb h =>
    spriteCell_injOn hw (by omega) (List.mem_of_mem_filter ha) (List.mem_of_mem_filter hb) h

/-- The numbers of the plotted cells are as distinct as the cells. -/
theorem nodup_plotted_numbers (hw : 8 ≤ s.params.displayW) (hh : 15 ≤ s.params.displayH) :
    ((s.plotted x y k.val).map (fun q => Display.cell s.params q.1 q.2)).Nodup := by
  have hon : ∀ q ∈ s.plotted x y k.val, s.OnDisplay q := fun q hq =>
    onDisplay_of_mem_plotted (by omega) (by omega) hq
  refine (nodup_plotted hw hh).map_on fun q hq r hr h => ?_
  obtain ⟨hcol, hrow⟩ := (cell_inj (hon q hq).1 (hon r hr).1).1 h
  exact Prod.ext hcol hrow

/-- The same sprite at the same coordinates plots the same cells. -/
theorem plotted_congr (hp : u.params = s.params) (hi : u.index = s.index)
    (hb : ∀ j < n, u.byte (s.index.toNat + j) = s.byte (s.index.toNat + j)) (hx : u.reg x = s.reg x)
    (hy : u.reg y = s.reg y) : u.plotted x y n = s.plotted x y n := by
  have hbit : ∀ rc ∈ spriteOffsets n, u.spriteBit rc = s.spriteBit rc := fun rc hrc => by
    rw [State.spriteBit, State.ea, hi, hb rc.1 (mem_spriteOffsets.1 hrc).1]; rfl
  have hcell : u.spriteCell x y = s.spriteCell x y := by
    funext rc; rw [State.spriteCell, hx, hy, hp]; rfl
  rw [State.plotted, hcell, List.filter_congr hbit]; rfl

/-! ## What a draw leaves -/

/-- The state after a draw whose sprite lies in memory. -/
def State.afterDraw (s : State) (x y : RegIx) (n : Nat) : State := s.takeCanvas (s.drawn x y n)

theorem exec_drw_next {n : Fin 16} (h : n.val = 0 ∨ s.index.toNat + n.val - 1 ≤ 0xFFF) :
    exec (.drw x y n) s = .next (s.afterDraw x y n.val) := withIndexRange_next _ h

/-- A draw toggles each cell as often as it plots it (R156). -/
theorem pixel_afterDraw (hq : s.OnDisplay q) :
    (s.afterDraw x y n).pixel q = (s.pixel q ^^ decide ((s.plotted x y n).count q % 2 = 1)) := by
  have hcount : (s.plotted x y n).countP (fun r => Display.cell s.params r.1 r.2 == Display.cell s.params q.1 q.2) =
      (s.plotted x y n).count q := by
    refine List.countP_congr fun r hr => ?_
    rw [cell_beq_cell (onDisplay_of_mem_plotted (Nat.zero_lt_of_lt hq.1) (Nat.zero_lt_of_lt hq.2) hr) hq]
  calc (s.afterDraw x y n).pixel q
    _ = (s.drawn x y n).disp.contains (Display.cell s.params q.1 q.2) := pixel_eq_contains (s := s.afterDraw x y n) hq
    _ = (s.pixel q ^^ decide ((s.plotted x y n).count q % 2 = 1)) := by
      rw [drawn_eq_foldl, foldl_plot_contains, hcount, pixel_eq_contains hq]

theorem reg_afterDraw (s : State) (x y : RegIx) (n : Nat) (r : RegIx) :
    (s.afterDraw x y n).reg r = if r = 15 then flagByte (s.drawn x y n).hit else s.reg r :=
  reg_setReg { s with disp := (s.drawn x y n).disp } flagReg r _

/-- On a display of at least 8 by 15, VF says whether a plotted cell was set (R159). -/
theorem reg_flag_afterDraw (hw : 8 ≤ s.params.displayW) (hh : 15 ≤ s.params.displayH) :
    (s.afterDraw x y k.val).reg 15 = flagByte ((s.plotted x y k.val).any s.pixel) := by
  rw [reg_afterDraw, if_pos rfl, drawn_eq_foldl, foldl_plot_hit _ _ _ (nodup_plotted_numbers hw hh), Bool.false_or,
    any_plotted, any_plotted]
  simp only [pixel_eq_contains (onDisplay_spriteCell (s := s) (by omega) (by omega) x y _)]

/-- On a display of at least 8 by 15, the commands are read off the display before the draw (R160). -/
theorem commands_afterDraw (hw : 8 ≤ s.params.displayW) (hh : 15 ≤ s.params.displayH) :
    (s.afterDraw x y k.val).commands =
      s.commands ++ (s.plotted x y k.val).map (plotCommand s.params s.disp) ++ [.present] := by
  have hafter : (s.afterDraw x y k.val).commands = s.commands ++ ((s.drawn x y k.val).commands ++ [.present]) := rfl
  rw [hafter, drawn_eq_foldl, foldl_plot_commands _ _ _ (nodup_plotted_numbers hw hh), List.nil_append,
    List.append_assoc]

/-- The command for a cell of the display, by the cell's value. -/
theorem plotCommand_eq_pixel (hq : s.OnDisplay q) :
    plotCommand s.params s.disp q = if s.pixel q then .clearPixel q.1 q.2 else .setPixel q.1 q.2 := by
  rw [plotCommand, pixel_eq_contains hq]

/-- Settles O35: the plots on a cell are the set bits that fall on it, and a draw writes nothing else but VF and the
commands. -/
theorem drawTogglesTheSpriteCells : Obligations.DrawTogglesTheSpriteCells := by
  unfold Obligations.DrawTogglesTheSpriteCells
  intro x y n s h
  refine ⟨_, exec_drw_next h, fun col hcol row hrow => ?_, fun r hr => ?_, rfl, fun _ => rfl⟩
  · rw [pixel_afterDraw ⟨hcol, hrow⟩, count_plotted]
  · rw [reg_afterDraw, if_neg hr]

/-- Settles O36: flag and commands are those of the plotted cells, which are the cells of the set bits. -/
theorem drawFlagsCollisionsAndEmitsCommands : Obligations.DrawFlagsCollisionsAndEmitsCommands := by
  unfold Obligations.DrawFlagsCollisionsAndEmitsCommands
  intro x y n s h hw hh
  refine ⟨_, exec_drw_next h, ?_, ?_⟩
  · rw [reg_flag_afterDraw hw hh, any_plotted, flagByte]
  · rw [commands_afterDraw hw hh, State.plotted, List.map_map]
    simp only [← plotCommand_eq_pixel (onDisplay_spriteCell (s := s) (by omega) (by omega) x y _), Function.comp_def]

/-! ## Drawing twice (R163) -/

/-- On a display of at least 8 by 15, a draw inverts each plotted cell. -/
theorem pixel_afterDraw_of_mem (hw : 8 ≤ s.params.displayW) (hh : 15 ≤ s.params.displayH)
    (hq : q ∈ s.plotted x y k.val) : (s.afterDraw x y k.val).pixel q = !s.pixel q := by
  rw [pixel_afterDraw (onDisplay_of_mem_plotted (by omega) (by omega) hq),
    List.count_eq_one_of_mem (nodup_plotted hw hh) hq]
  exact Bool.xor_true _

theorem any_pixel_afterDraw (hw : 8 ≤ s.params.displayW) (hh : 15 ≤ s.params.displayH) :
    (s.plotted x y k.val).any (s.afterDraw x y k.val).pixel = (s.plotted x y k.val).any (fun q => !s.pixel q) := by
  rw [Bool.eq_iff_iff, List.any_eq_true, List.any_eq_true]
  exact exists_congr fun q => and_congr_right fun hq => by rw [pixel_afterDraw_of_mem hw hh hq]

/-- Settles O37: both draws plot the same cells, so each cell is toggled twice as often as one of them toggles it; the
second one meets the plotted cells as the first one left them. -/
theorem drawTwiceRestoresTheDisplay : Obligations.DrawTwiceRestoresTheDisplay := by
  unfold Obligations.DrawTwiceRestoresTheDisplay
  intro x y n s h
  refine ⟨_, exec_drw_next h, fun u hp hd hi hb hx hy => ?_⟩
  replace hp : u.params = s.params := hp
  have hplot : u.plotted x y n.val = s.plotted x y n.val := plotted_congr hp hi hb hx hy
  have hpixel : u.pixel = (s.afterDraw x y n.val).pixel := by
    funext q; rw [State.pixel, hp, hd]; rfl
  refine ⟨_, exec_drw_next (hi ▸ h), fun col hcol row hrow => ?_, fun hw hh => ?_⟩
  · have hs : s.OnDisplay (col, row) := ⟨hcol, hrow⟩
    have hu : u.OnDisplay (col, row) := by rwa [State.OnDisplay, hp]
    rw [pixel_afterDraw hu, hplot, hpixel, pixel_afterDraw hs, Bool.xor_assoc, Bool.xor_self, Bool.xor_false]
  · rw [← hp] at hw hh
    rw [reg_flag_afterDraw hw hh, hplot, hpixel, any_pixel_afterDraw (hp ▸ hw) (hp ▸ hh), any_plotted, flagByte]

end Sys2Proof.Machine
end

section
/-! PROOFS. Key skips and the key wait (R170 to R176). The two key skips are the skip mechanism on one key, read either way;
FX0A has a rule for each of its three cases, and a step that polls in vain runs the third of them, which undoes the advance
of its fetch. -/

namespace Sys2Proof.Machine

variable {s : State} {x : RegIx}

/-! ## Key skips -/

/-- Settles O39: the key tested is the bit of this step's `keys` that the low nibble of `VX` names (R173). -/
theorem keySkipsReadTheStepsKeys : Obligations.KeySkipsReadTheStepsKeys := by
  unfold Obligations.KeySkipsReadTheStepsKeys
  rintro x s down rfl
  have hup := exec_skips (s := s) (i := .sknp x) rfl Bool.not_iff_not
  rw [ite_not] at hup
  exact ⟨exec_skips rfl Iff.rfl, hup⟩

/-! ## The key wait -/

/-- The entry step does not look at the event (decision D20 of the spec). -/
theorem exec_ldVxK_enters (h : s.awaiting = false) :
    exec (.ldVxK x) s = .next { s.stay with awaiting := true } := by
  simpa [h] using exec_ldVxK_cases x s

theorem exec_ldVxK_delivers {k : KeyIx} (h : s.awaiting = true) (hk : s.hostTurn.keyEvent = some k) :
    exec (.ldVxK x) s = .next { s.setReg x (BitVec.ofNat 8 k.val) with awaiting := false } := by
  simpa [h, hk] using exec_ldVxK_cases x s

theorem exec_ldVxK_stays (h : s.awaiting = true) (hk : s.hostTurn.keyEvent = none) :
    exec (.ldVxK x) s = .next s.stay := by
  simpa [h, hk] using exec_ldVxK_cases x s

/-- Staying undoes the advance of the fetch, `pc` wrapping in both (R174). -/
theorem stay_advance (s : State) : s.advance.stay = s := by
  rw [stay_eq, advance_eq, jumpTo_pc, BitVec.add_sub_cancel]
  rfl

theorem pc_stay_add_two (s : State) : s.stay.pc + 2#16 = s.pc := BitVec.sub_add_cancel ..

/-- A key number fits a byte. -/
theorem toNat_ofNat_key (k : KeyIx) : (BitVec.ofNat 8 k.val).toNat = k.val :=
  (BitVec.toNat_ofNat ..).trans (Nat.mod_eq_of_lt (by omega))

/-- Settles O40: entry, delivery and the poll in vain, each by the rule of its case. -/
theorem keyWaitEntersPollsAndDelivers : Obligations.KeyWaitEntersPollsAndDelivers := by
  unfold Obligations.KeyWaitEntersPollsAndDelivers
  refine fun x s => ⟨fun h => ?enters, fun k h hk => ?delivers, fun h hk => ?stays⟩
  case enters => exact ⟨_, exec_ldVxK_enters h, rfl, pc_stay_add_two s, rfl, fun _ => rfl⟩
  case delivers =>
    refine ⟨_, exec_ldVxK_delivers h hk, rfl, fun r => ?_, rfl, fun _ => rfl⟩
    refine (congrArg BitVec.toNat (reg_setReg s x r _)).trans ?_
    rw [apply_ite BitVec.toNat, toNat_ofNat_key]
  case stays => exact ⟨_, exec_ldVxK_stays h hk, pc_stay_add_two s, rfl, fun _ => rfl⟩

/-- Settles O41: the step runs the FX0A at `pc`, which stays, so only the host's part around it is left. -/
theorem waitingWithoutAKeyChangesNothing : Obligations.WaitingWithoutAKeyChangesNothing := by
  unfold Obligations.WaitingWithoutAKeyChangesNothing
  intro s hs ha hk
  obtain ⟨hpc, x, hd⟩ := hs ha
  have hstay : exec (.ldVxK x) (beginStep s).advance = .next (beginStep s).advance.stay := exec_ldVxK_stays ha hk
  rw [step_of_decoded hpc hd, hstay, stay_advance]
  rfl

end Sys2Proof.Machine
end

section
/-! PROOFS. The timer instructions (R181 to R183): each copies one byte between `VX` and a timer, and the sound output is a
reading of `ST` (R234). -/

namespace Sys2Proof.Machine

/-- The sound output is on exactly while `ST`, as a number, is not 0 (R234). -/
theorem soundActive_iff (s : State) : soundActive s = true ↔ s.st.toNat ≠ 0 :=
  bne_iff_ne.trans BitVec.toNat_ne

/-- Settles O42: FX07 is the write of one register, FX15 and FX18 each set one field, and the sound output reads `ST`. -/
theorem timerInstructionsCopy : Obligations.TimerInstructionsCopy := by
  unfold Obligations.TimerInstructionsCopy
  refine fun x s => ⟨?readsDt, ?setsDt, ?setsSt⟩
  case readsDt => exact exec_writes_reg rfl
  case setsDt => exact ⟨{ s with dt := s.reg x }, rfl, rfl, rfl, fun _ => rfl⟩
  case setsSt => exact ⟨{ s with st := s.reg x }, rfl, rfl, soundActive_iff _, rfl, fun _ => rfl⟩

end Sys2Proof.Machine
end

section
/-! PROOFS. Index register and memory (R190 to R204). ANNN and FX29 write `I` alone; FX33 and FX55 store a list of bytes from
`I` on, and what memory then reads as is read off that list; FX65 reads the same addresses back. -/

namespace Sys2Proof.Machine

variable {s : State} {x : RegIx}

/-- Settles O15: every effect but a store's leaves memory as it was, and a store is FX33's or FX55's. -/
theorem onlyBcdAndStoreWriteMemory : Obligations.OnlyBcdAndStoreWriteMemory := by
  unfold Obligations.OnlyBcdAndStoreWriteMemory
  intro i s t h hne
  cases exec_effect h
  case storeBytes a bs ha hi => exact hi
  all_goals exact absurd rfl hne

/-! ## The index register -/

/-- An instruction that writes `I` alone: what `I` then is, and the frame. -/
theorem exec_writes_index {i : Instr} {w : Word} {target : Nat} (he : exec i s = .next (s.setIndex w))
    (hw : w.toNat = target) :
    ∃ t, exec i s = .next t ∧ t.index.toNat = target ∧ t = { s with index := t.index } ∧ SameMemory s t :=
  ⟨_, he, hw, rfl, byte_setIndex s w⟩

/-- Settles O46: the only word of ANNN is its encoding, and its one write is `NNN` widened with zeros to `I`. -/
theorem loadIndexSetsI : Obligations.LoadIndexSetsI := by
  unfold Obligations.LoadIndexSetsI
  intro nnn s
  exact ⟨fun w => decodeWord_eq_some_iff, exec_writes_index rfl (toNat_zextAddr nnn)⟩

/-- Settles O47: the sum wraps at 16 bits in `I`, and the flag compares it unwrapped; both take `VX` as it was before VF is
written. -/
theorem addToIndexFlagsTheTwelveBitOverflow : Obligations.AddToIndexFlagsTheTwelveBitOverflow := by
  unfold Obligations.AddToIndexFlagsTheTwelveBitOverflow
  refine fun x s => ⟨_, rfl, ?index, fun r => ?flag, rfl, fun _ => rfl⟩
  case index =>
    rw [setFlag_eq, setReg_index, setIndex_index, BitVec.toNat_add, toNat_zextByte]
  case flag =>
    rw [setFlag_eq, reg_setReg, reg_setIndex, apply_ite BitVec.toNat, indexOverflow, toNat_flagByte_decide, flagReg]

/-- The address of a digit's glyph is within 16 bits (R54). -/
theorem toNat_fontAddress (b : Byte) :
    (BitVec.ofNat 16 (fontBase + 5 * lowNibble b)).toNat = 0x50 + 5 * (b.toNat % 16) := by
  rw [BitVec.toNat_ofNat, lowNibble, fontBase]
  omega

/-- Settles O48: the digit is at most 15, so its five bytes end within the font table. -/
theorem fontAddressIsBasePlusFiveTimesTheDigit : Obligations.FontAddressIsBasePlusFiveTimesTheDigit := by
  unfold Obligations.FontAddressIsBasePlusFiveTimesTheDigit
  intro x s
  obtain ⟨t, he, hindex, hframe⟩ := exec_writes_index (s := s) (i := .ldF x) rfl (toNat_fontAddress (s.reg x))
  exact ⟨t, he, hindex, by omega, hframe⟩

/-! ## Stores from `I` on -/

/-- A store changes no byte outside the ones it writes (R61). -/
theorem sameMemoryOutside_storeBytes (s : State) (a : Nat) (bs : List Byte) :
    SameMemoryOutside a bs.length s (s.storeBytes a bs) :=
  fun b hb => byte_storeBytes_outside s a b bs hb

/-- FX33 where its three bytes fit: the stored digits (R196). -/
theorem exec_ldB_next (h : s.index.toNat + 2 ≤ 0xFFF) :
    exec (.ldB x) s = .next (s.storeBytes s.index.toNat (bcdDigits (s.reg x))) :=
  withIndexRange_next _ (.inr (by omega))

/-- A number that is at most some byte, as a digit of the byte is, fits a byte. -/
theorem toNat_ofNat_of_le_byte {n : Nat} {b : Byte} (h : n ≤ b.toNat) : (BitVec.ofNat 8 n).toNat = n :=
  (BitVec.toNat_ofNat ..).trans (Nat.mod_eq_of_lt (h.trans_lt b.isLt))

/-- What the three addresses hold after the digits of `b` are stored there, as numbers (R196). -/
theorem toNat_byte_storeBytes_bcdDigits (s : State) (a : Nat) (b : Byte) :
    ((s.storeBytes a (bcdDigits b)).byte a).toNat = b.toNat / 100 ∧
    ((s.storeBytes a (bcdDigits b)).byte (a + 1)).toNat = b.toNat / 10 % 10 ∧
    ((s.storeBytes a (bcdDigits b)).byte (a + 2)).toNat = b.toNat % 10 := by
  have hstored := byte_storeBytes_inside s a (bs := bcdDigits b)
  refine ⟨?hundreds, ?tens, ?ones⟩
  case hundreds => exact (congrArg _ (hstored 0 (Nat.succ_pos 2))).trans (toNat_ofNat_of_le_byte (b := b) (by omega))
  case tens => exact (congrArg _ (hstored 1 (Nat.one_lt_succ_succ 1))).trans (toNat_ofNat_of_le_byte (b := b) (by omega))
  case ones => exact (congrArg _ (hstored 2 (Nat.lt_succ_self 2))).trans (toNat_ofNat_of_le_byte (b := b) (by omega))

/-- Settles O49: the bytes stored are hundreds, tens and ones, which a number below 1000 is the sum of. -/
theorem bcdStoresTheThreeDigits : Obligations.BcdStoresTheThreeDigits := by
  unfold Obligations.BcdStoresTheThreeDigits
  intro x s h
  obtain ⟨hhundreds, htens, hones⟩ := toNat_byte_storeBytes_bcdDigits s s.index.toNat (s.reg x)
  exact ⟨_, exec_ldB_next h, hhundreds, htens, hones, by omega, sameMemoryOutside_storeBytes s _ (bcdDigits _), rfl⟩

/-- Settles O50: the bytes stored are `V0` to `VX` in order, `X + 1` of them. -/
theorem storeRegistersWritesTheRange : Obligations.StoreRegistersWritesTheRange := by
  unfold Obligations.StoreRegistersWritesTheRange
  intro x s h
  have hout := sameMemoryOutside_storeBytes s s.index.toNat (s.regsUpTo x)
  rw [length_regsUpTo] at hout
  exact ⟨_, exec_stRegs_next h, fun j hj => byte_storeBytes_regsUpTo s _ hj, hout, rfl⟩

/-! ## Loads from `I` on -/

/-- FX65 where its range fits: the loaded registers (R200). -/
theorem exec_ldRegs_next (h : s.index.toNat + x.val ≤ 0xFFF) :
    exec (.ldRegs x) s = .next (s.loadRegs x (fun j => s.byte (s.index.toNat + j))) :=
  withIndexRange_next _ (.inr (by omega))

/-- Settles O51: each register in the range holds the byte at its own address, every other one what it held. -/
theorem loadRegistersReadsTheRange : Obligations.LoadRegistersReadsTheRange := by
  unfold Obligations.LoadRegistersReadsTheRange
  intro x s h
  exact ⟨_, exec_ldRegs_next h, fun j => reg_loadRegs s x j _, rfl, byte_loadRegs s x _⟩

/-- Settles O52: FX55 leaves `I`, so FX65 reads the addresses that FX55 wrote. -/
theorem storeThenLoadGivesTheRegistersBack : Obligations.StoreThenLoadGivesTheRegistersBack := by
  unfold Obligations.StoreThenLoadGivesTheRegistersBack
  intro x s t u h hst hindex hbytes
  rw [exec_stRegs_next h] at hst
  cases hst
  rw [storeBytes_index] at hindex
  refine ⟨_, exec_ldRegs_next (hindex ▸ h), fun j hj => ?_⟩
  calc (u.loadRegs x (fun j => u.byte (u.index.toNat + j))).reg j
      = u.byte (s.index.toNat + j.val) := by rw [reg_loadRegs, if_pos hj, hindex]
    _ = (s.storeBytes s.index.toNat (s.regsUpTo x)).byte (s.index.toNat + j.val) := hbytes j.val hj
    _ = s.reg j := byte_storeBytes_regsUpTo s s.index.toNat hj

end Sys2Proof.Machine
end

section
/-! PROOFS. Errors (R210 to R217). A step is the raising of the error that is due, from the state the fetch has left, and
goes on where none is due; an instruction raises an error or not whatever the policy is. -/

namespace Sys2Proof.Machine

variable {s : State}

/-! ## The error that is due -/

theorem errorDue_of_fetchFault (h : s.pc.toNat > 0xFFE) :
    s.errorDue = some (.memoryRangeFault (offending s.pc.toNat)) := by
  rw [State.errorDue, if_pos h]

theorem errorDue_of_illegal (h : s.pc.toNat ≤ 0xFFE) (hd : decodeWord s.fetchWord = none) :
    s.errorDue = some (.unknownInstruction s.fetchWord) := by
  rw [State.errorDue, if_neg (Nat.not_lt.2 h), hd]

/-- Where a word is fetched and decodes, the error due is the one its instruction's own check raises. -/
theorem errorDue_of_decoded {i : Instr} (h : s.pc.toNat ≤ 0xFFE) (hd : decodeWord s.fetchWord = some i) :
    s.errorDue = ownError i s := by
  rw [State.errorDue, if_neg (Nat.not_lt.2 h), hd]
  cases i <;> rfl

/-- Everything a step can do, as to the error it returns (R216): it raises the error due, or none is due and it goes on with
none. -/
theorem step_spec (s : State) :
    (∃ f u, s.errorDue = some f ∧ u.onError = s.onError ∧ step s = onNext endTurn (raise f u)) ∨
    (s.errorDue = none ∧ ∃ t, step s = .next t ∧ t.error = none) := by
  by_cases hpc : s.pc.toNat > 0xFFE
  · exact .inl ⟨_, beginStep s, errorDue_of_fetchFault hpc, rfl, step_of_fetchFault hpc⟩
  · have hpc' : s.pc.toNat ≤ 0xFFE := Nat.le_of_not_lt hpc
    cases hd : decodeWord s.fetchWord with
    | none => exact .inl ⟨_, (beginStep s).advance, errorDue_of_illegal hpc' hd, rfl, step_of_illegal hpc' hd⟩
    | some i =>
      have hown : s.errorDue = ownError i (beginStep s).advance := errorDue_of_decoded hpc' hd
      rw [hown, step_of_decoded hpc' hd]
      rcases exec_spec i (beginStep s).advance with ⟨f, hf, hr⟩ | ⟨hnone, u, hu, hk⟩
      · exact .inl ⟨f, (beginStep s).advance, hf, rfl, congrArg _ hr⟩
      · exact .inr ⟨hnone, endTurn u, congrArg _ hu, hk.error⟩

/-- Settles O7: the policy decides only whether the error that is raised ends the run or is noted. -/
theorem stepReturnsExactlyTheErrorDue : Obligations.StepReturnsExactlyTheErrorDue := by
  unfold Obligations.StepReturnsExactlyTheErrorDue
  intro s
  rcases step_spec s with ⟨f, u, hdue, hu, hstep⟩ | ⟨hdue, hgoes⟩
  · rw [hdue, hstep]
    refine ⟨?halts, ?goesOn, nofun⟩
    case halts =>
      rintro _ ⟨rfl⟩ hpolicy
      rw [raise_halt f (hu.trans hpolicy)]
      rfl
    case goesOn =>
      rintro _ ⟨rfl⟩ hpolicy
      rw [raise_goOn f (hu.trans hpolicy)]
      exact ⟨_, rfl, rfl⟩
  · rw [hdue]
    exact ⟨nofun, nofun, fun _ => hgoes⟩

/-- Settles O8: an instruction that goes on leaves the emptied error field, so the error was raised, where `pc` stands as
R214 says. -/
theorem errorsLeaveOnlyTheAdvancedPc : Obligations.ErrorsLeaveOnlyTheAdvancedPc := by
  unfold Obligations.ErrorsLeaveOnlyTheAdvancedPc
  intro s t f h herror
  rcases step_next_cases h with ⟨i, u, -, -, -, -, hk, rfl⟩ | ⟨g, -, rfl⟩
  · exact absurd (hk.error.symm.trans herror) (Option.some_ne_none f).symm
  · obtain rfl : g = f := Option.some.inj herror
    rfl

/-! ## The policy -/

/-- The state under another policy of the host. -/
def State.withPolicy (e : OnError) (s : State) : State := { s with onError := e }

variable {i : Instr}

/-- The instruction's own check does not look at the policy. -/
theorem ownError_withPolicy (i : Instr) (e : OnError) (s : State) : ownError i (s.withPolicy e) = ownError i s := rfl

/-- A check that passes has found its condition false. -/
theorem not_of_ite_some_eq_none {c : Prop} [Decidable c] {f : Fault} (h : (if c then some f else none) = none) : ¬c :=
  fun hc => Option.some_ne_none f ((if_pos hc).symm.trans h)

/-- An instruction whose own check fails raises its error, and nothing else. -/
theorem exec_of_ownError {f : Fault} (h : ownError i s = some f) : exec i s = raise f s := by
  rcases exec_spec i s with ⟨g, hg, hr⟩ | ⟨hnone, -⟩
  · obtain rfl : f = g := Option.some.inj (h.symm.trans hg)
    exact hr
  · exact absurd (h.symm.trans hnone) (Option.some_ne_none f)

theorem withIndexRange_withPolicy {n : Nat} (e : OnError) (t : State) (h : n = 0 ∨ s.index.toNat + n - 1 ≤ 0xFFF) :
    withIndexRange n (s.withPolicy e) (t.withPolicy e) = onNext (State.withPolicy e) (withIndexRange n s t) := by
  rw [withIndexRange_next t h, withIndexRange_next (s := s.withPolicy e) _ h]
  rfl

theorem skipIf_withPolicy (e : OnError) (s : State) (c : Bool) :
    (s.withPolicy e).skipIf c = (s.skipIf c).withPolicy e := by
  cases c <;> rfl

theorem exec_call_withPolicy {nnn : Addr12} (e : OnError) (h : s.sp.val ≠ 16) :
    exec (.call nnn) (s.withPolicy e) = onNext (State.withPolicy e) (exec (.call nnn) s) := by
  have hfree : s.sp.val < 16 := by have := s.sp.isLt; omega
  rw [exec_call_free hfree, exec_call_free (s := s.withPolicy e) hfree]
  rfl

theorem exec_ret_withPolicy (e : OnError) (h : s.sp.val ≠ 0) :
    exec .ret (s.withPolicy e) = onNext (State.withPolicy e) (exec .ret s) := by
  have hlt := s.sp.isLt
  have hj : s.sp.val = (⟨s.sp.val - 1, by omega⟩ : Fin 16).val + 1 := by simp only; omega
  rw [exec_ret_occupied hj, exec_ret_occupied (s := s.withPolicy e) hj]
  rfl

theorem exec_ldVxK_withPolicy (x : RegIx) (e : OnError) (s : State) :
    exec (.ldVxK x) (s.withPolicy e) = onNext (State.withPolicy e) (exec (.ldVxK x) s) := by
  rcases exec_ldVxK_cases x s with ⟨ha, hr⟩ | ⟨ha, hk, hr⟩ | ⟨ha, k, hk, hr⟩
  · rw [hr, exec_ldVxK_enters (s := s.withPolicy e) ha]; rfl
  · rw [hr, exec_ldVxK_stays (s := s.withPolicy e) ha hk]; rfl
  · rw [hr, exec_ldVxK_delivers (s := s.withPolicy e) ha hk]; rfl

/-- An instruction whose own check passes ends in the same state under any policy (R217). -/
theorem exec_withPolicy (e : OnError) (h : ownError i s = none) :
    exec i (s.withPolicy e) = onNext (State.withPolicy e) (exec i s) := by
  cases i
  case call nnn => exact exec_call_withPolicy e (not_of_ite_some_eq_none h)
  case ret => exact exec_ret_withPolicy e (not_of_ite_some_eq_none h)
  case drw x y n =>
    have hrange := not_of_ite_some_eq_none h
    exact withIndexRange_withPolicy e (s.takeCanvas (s.drawn x y n.val)) (by omega)
  case ldB x =>
    have hrange := not_of_ite_some_eq_none h
    exact withIndexRange_withPolicy e (s.storeBytes (s.ea 0) (bcdDigits (s.reg x))) (by omega)
  case stRegs x =>
    have hrange := not_of_ite_some_eq_none h
    exact withIndexRange_withPolicy e (s.storeBytes (s.ea 0) (s.regsUpTo x)) (by omega)
  case ldRegs x =>
    have hrange := not_of_ite_some_eq_none h
    exact withIndexRange_withPolicy e (s.loadRegs x (fun j => s.byte (s.ea j))) (by omega)
  case seImm | sneImm | seReg | sneReg | skp | sknp => exact congrArg _ (skipIf_withPolicy e s _)
  case ldVxK x => exact exec_ldVxK_withPolicy x e s
  all_goals rfl

/-- Settles O9: where the own check fails, the same error is raised under both policies; where it passes, the policy is
carried along. -/
theorem errorPolicyDoesNotReachExecution : Obligations.ErrorPolicyDoesNotReachExecution := by
  unfold Obligations.ErrorPolicyDoesNotReachExecution
  intro i s
  rcases exec_spec i s with ⟨f, hown, -⟩ | ⟨hown, t, ht, -⟩
  · have hraise : ∀ e, exec i (s.withPolicy e) = raise f (s.withPolicy e) := fun e =>
      exec_of_ownError ((ownError_withPolicy i e s).trans hown)
    exact .inr ⟨f, (hraise .halt).trans (raise_halt f rfl), (hraise .goOn).trans (raise_goOn f rfl)⟩
  · have hnext : ∀ e, exec i (s.withPolicy e) = .next (t.withPolicy e) := fun e =>
      (exec_withPolicy e hown).trans (congrArg (onNext _) ht)
    exact .inl ⟨t, hnext .halt, hnext .goOn⟩

end Sys2Proof.Machine
end

section
/-! PROOFS. The tick and the host's turns (R231, R232). -/

namespace Sys2Proof.Machine

/-- Settles O43: a count down, as a number, is a subtraction that stops at 0, and the sound output reads the new `ST`. -/
theorem tickCountsEachTimerDown : Obligations.TickCountsEachTimerDown := by
  unfold Obligations.TickCountsEachTimerDown
  intro s
  have hst : (tickTimers s).st.toNat = s.st.toNat - 1 := toNat_countDown s.st
  refine ⟨toNat_countDown s.dt, hst, ?_, rfl⟩
  rw [soundActive_iff, hst]
  omega

/-- Ticks one by one reach the closed form (R231). -/
theorem iterate_tickTimers (n : Nat) (s : State) :
    tickTimers^[n] s = { s with dt := countDownBy n s.dt, st := countDownBy n s.st } := by
  induction n generalizing s with
  | zero => rw [countDownBy_zero, countDownBy_zero]; rfl
  | succ n ih =>
    rw [Function.iterate_succ_apply, ih, countDownBy_succ, countDownBy_succ]
    rfl

/-! ## Runs -/

section
variable {r : Nat → State} (hr : IsRun r)
include hr

/-- A run goes through the schedule, one turn a step (log entry 2). -/
theorem IsRun.schedule_add (k n : Nat) : (r (k + n)).schedule = (r k).schedule.drop n := by
  induction n with
  | zero => rfl
  | succ n ih =>
    obtain ⟨-, -, hsch, -⟩ := stepKeepsParametersAndTakesOneTurn _ _ (hr (k + n))
    rw [← Nat.add_assoc, hsch, ih, List.tail_drop]

theorem IsRun.turn_add (k n : Nat) : (r (k + n)).turn = (r k).turn + n := by
  induction n with
  | zero => rfl
  | succ n ih =>
    obtain ⟨-, -, -, hturn⟩ := stepKeepsParametersAndTakesOneTurn _ _ (hr (k + n))
    rw [← Nat.add_assoc, hturn, ih, Nat.add_assoc]

/-- From the end of the schedule on, the turns of a run are the free but fair host's. -/
theorem IsRun.hostTurn_past_schedule {k n : Nat} (hn : (r k).schedule.length ≤ n) :
    (r (k + n)).hostTurn = fairTurn Config.freeHostTurn Config.freeTickWait ((r k).turn + n) := by
  have hnil : (r (k + n)).schedule = [] := (hr.schedule_add k n).trans (List.drop_eq_nil_of_le hn)
  rw [hostTurn_of_schedule_nil hnil, hr.turn_add]

theorem IsRun.ticksKeepComing : TicksKeepComing r := by
  intro k
  obtain ⟨m, hm, hticks⟩ := fairTurn_ticks_keep_coming Config.freeHostTurn Config.freeTickWait
    ((r k).turn + (r k).schedule.length)
  obtain ⟨n, rfl⟩ := Nat.exists_eq_add_of_le hm
  rw [Nat.add_assoc, ← hr.hostTurn_past_schedule (Nat.le_add_right ..)] at hticks
  exact ⟨_, Nat.le_add_right .., hticks⟩

end

/-- Settles O44: the closed form of a turn is its ticks repeated, and a run outlives its schedule, after which the host is
fair. -/
theorem hostTurnIsItsTicksOneByOne : Obligations.HostTurnIsItsTicksOneByOne := by
  unfold Obligations.HostTurnIsItsTicksOneByOne
  refine ⟨fun s => ?_, fun r hr => hr.ticksKeepComing⟩
  rw [iterate_tickTimers]
  rfl

end Sys2Proof.Machine
end

section
/-! PROOFS. What `reset(image)` places (R250, R254): the image is the one store into the empty memory, and every other
address reads as unlisted, the font table among them, since it ends below the image. -/

namespace Sys2Proof.Machine

theorem unlisted_font (p : Params) {j : Nat} (hj : j < p.font.length) (hlen : p.font.length = 80) :
    Memory.unlisted p (0x50 + j) = p.font[j] := by
  have hin : fontBase ≤ 0x50 + j ∧ 0x50 + j < fontBase + fontSize := by
    simp only [fontBase, fontSize]; omega
  have hoff : 0x50 + j - fontBase = j := Nat.add_sub_cancel_left ..
  rw [Memory.unlisted, if_pos hin, hoff, List.getD_eq_getElem _ _ hj]

theorem unlisted_outside_font (p : Params) {a : Nat} (h : ¬(0x50 ≤ a ∧ a < 0xA0)) :
    Memory.unlisted p a = p.memInit.getD a 0x00#8 :=
  if_neg h

/-- Outside the image, memory after a reset reads as unlisted. -/
theorem read_store_image_outside (p : Params) (image : List Byte) {a : Nat} (h : ¬(0x200 ≤ a ∧ a < 0x200 + image.length)) :
    Memory.read p (Memory.store p programBase image []) a = Memory.unlisted p a :=
  read_store_outside p image [] programBase a h

/-- Settles O54: the image's own bytes are the store's, and an address outside the image reads the font or `MEM_INIT`. -/
theorem resetPlacesFontAndImage : Obligations.ResetPlacesFontAndImage := by
  unfold Obligations.ResetPlacesFontAndImage
  refine fun p e sch image hfont => ⟨fun hlong => ?tooLong, fun hfits => ?fits⟩
  case tooLong => exact if_neg (Nat.not_le.2 hlong)
  case fits =>
    refine ⟨_, resetWith_eq_some.2 ⟨hfits, rfl⟩, fun j hj => ?image, fun j hj => ?font, fun a ha ha' => ?memInit, rfl, rfl⟩
    case image => exact read_store_inside p image [] programBase j hj
    case font => exact (read_store_image_outside p image (by omega)).trans (unlisted_font p hj hfont)
    case memInit => exact (read_store_image_outside p image ha').trans (unlisted_outside_font p ha)

end Sys2Proof.Machine
end

section
/-! PROOFS. Finished programs (R264). A jump to its own address gives back the state the step began with, so only the host's
part around it is left, and that part keeps a program finished. -/

namespace Sys2Proof.Machine

variable {s : State}

/-- A step of a finished program is the host's part alone. -/
theorem State.Finished.step_eq (h : s.Finished) : step s = .next (endTurn (beginStep s)) := by
  obtain ⟨hpc, -, nnn, hd, hself⟩ := h
  have hjump : exec (.jp nnn) (beginStep s).advance = .next ((beginStep s).advance.jumpTo (zextAddr nnn)) := rfl
  rw [step_of_decoded hpc hd, hjump, hself]
  rfl

theorem State.Finished.endTurn_beginStep (h : s.Finished) : (endTurn (beginStep s)).Finished := h

/-- A finished program is safe for ever. -/
theorem State.Finished.safeFor (h : s.Finished) (k : Nat) : s.SafeFor k := by
  induction k generalizing s with
  | zero => trivial
  | succ k ih => exact ⟨_, h.step_eq, rfl, ih h.endTurn_beginStep⟩

/-- Settles O60: what a step of a finished program does, that it stays finished, and so on by induction. -/
theorem finishedProgramsStayFinished : Obligations.FinishedProgramsStayFinished := by
  unfold Obligations.FinishedProgramsStayFinished
  exact fun s h => ⟨h.step_eq, h.endTurn_beginStep, h.safeFor⟩

end Sys2Proof.Machine
end
